-- ==== Sys2Proof/Word.lean ====
section
/-! DEFINITION. The word types of CA1 CORE: every architectural value is one byte, an unsigned integer
0..255 (spec/00_scope.md R5, R6: XLEN = ADDR_WIDTH = PC_WIDTH = 8), and a register index is 0..7
(R5: NREGS = 8). -/

namespace Sys2Proof

/-- A byte: a general register, a memory cell, an address, an opcode, an operand (R5, R6). The machine's
`+8` and `-8` (R6) are the addition and subtraction of this type; there is no signed reading (R6). -/
abbrev Byte := BitVec 8

/-- The index of a general register, `0 <= i <= 7` (R11, R14). -/
abbrev RegIdx := Fin 8

end Sys2Proof
end

