-- ==== Sys2Proof/Syntax.lean ====
section
/-! DEFINITION. The ten instructions of spec/opcode_table.json (spec/30_encoding.md R48), one constructor a row,
in the table's order. An operand is the whole byte that stands in memory (R43 to R45): a register operand
byte above 7 names no register, and WellFormed.lean says which terms have none such. -/

namespace Sys2Proof

/-- An instruction with its operand bytes (R41 to R45, R52). -/
inductive Instr
  /-- `HLT` (R68), format Z. -/
  | hlt
  /-- `LDI Ra,imm` (R69), format RI. -/
  | ldi (ra imm : Byte)
  /-- `MUL Ra,Rb` (R71), format RR. -/
  | mul (ra rb : Byte)
  /-- `ADD Ra,Rb` (R72), format RR. -/
  | add (ra rb : Byte)
  /-- `PRN Ra` (R74), format R. -/
  | prn (ra : Byte)
  /-- `PUSH Ra` (R77), format R. -/
  | push (ra : Byte)
  /-- `POP Ra` (R78), format R. -/
  | pop (ra : Byte)
  /-- `CALL Ra` (R79), format R. -/
  | call (ra : Byte)
  /-- `RET` (R80), format Z. -/
  | ret
  /-- `JMP Ra` (R81), format R. -/
  | jmp (ra : Byte)
deriving DecidableEq, Repr

end Sys2Proof
end

