-- ==== Sys2Proof/Decode.lean ====
section
/-! DEFINITION. Decoding and encoding, from the tables of spec/30_encoding.md (R41 to R51) and the decoder of
spec/40_execution_cycle.md R59. Decoding is total on any bytes and rejects by name. -/

namespace Sys2Proof

/-! The opcode bytes `OPC_*` of R48. The source gives none: they are the spec's decision D1, from general
knowledge of the LS-8 teaching ISA (log entry 1). -/

/-- `OPC_HLT` (R48). -/
def opcHLT : Byte := 0b00000001#8
/-- `OPC_LDI` (R48). -/
def opcLDI : Byte := 0b10011001#8
/-- `OPC_MUL` (R48). -/
def opcMUL : Byte := 0b10101010#8
/-- `OPC_ADD` (R48). -/
def opcADD : Byte := 0b10101000#8
/-- `OPC_PRN` (R48). -/
def opcPRN : Byte := 0b01000011#8
/-- `OPC_PUSH` (R48). -/
def opcPUSH : Byte := 0b01001101#8
/-- `OPC_POP` (R48). -/
def opcPOP : Byte := 0b01001100#8
/-- `OPC_CALL` (R48). -/
def opcCALL : Byte := 0b01001000#8
/-- `OPC_RET` (R48). -/
def opcRET : Byte := 0b00001001#8
/-- `OPC_JMP` (R48). -/
def opcJMP : Byte := 0b01010000#8

/-- The four instruction formats (R41). -/
inductive Format
  /-- One byte: `opcode` (R42). -/
  | z
  /-- Two bytes: `opcode`, `ra` (R43). -/
  | r
  /-- Three bytes: `opcode`, `ra`, `rb` (R44). -/
  | rr
  /-- Three bytes: `opcode`, `ra`, `imm` (R45). -/
  | ri
deriving DecidableEq, Repr

/-- Length in bytes of an instruction of the format (R41). -/
def Format.length : Format → Nat
  | .z => 1
  | .r => 2
  | .rr => 3
  | .ri => 3

/-- The ten handlers the decoder can name (R59). -/
inductive Handler
  | hlt | ldi | mul | add | prn | push | pop | call | ret | jmp
deriving DecidableEq, Repr

/-- The format of each handler's instruction (R48, R59). -/
def Handler.format : Handler → Format
  | .hlt => .z
  | .ldi => .ri
  | .mul => .rr
  | .add => .rr
  | .prn => .r
  | .push => .r
  | .pop => .r
  | .call => .r
  | .ret => .z
  | .jmp => .r

/-- The opcode byte that selects each handler (R48). -/
def Handler.opcode : Handler → Byte
  | .hlt => opcHLT
  | .ldi => opcLDI
  | .mul => opcMUL
  | .add => opcADD
  | .prn => opcPRN
  | .push => opcPUSH
  | .pop => opcPOP
  | .call => opcCALL
  | .ret => opcRET
  | .jmp => opcJMP

/-- The instruction decoder (R59): a constant function from the byte in `ir` to one of ten handlers, or to
none. The comparison is on all eight bits; it is the dispatch table, which is not state (R24). -/
def decodeOpcode (b : Byte) : Option Handler :=
  if b = opcHLT then some .hlt
  else if b = opcLDI then some .ldi
  else if b = opcMUL then some .mul
  else if b = opcADD then some .add
  else if b = opcPRN then some .prn
  else if b = opcPUSH then some .push
  else if b = opcPOP then some .pop
  else if b = opcCALL then some .call
  else if b = opcRET then some .ret
  else if b = opcJMP then some .jmp
  else none

/-- What decoding a list of bytes gives. -/
inductive Decoded
  /-- An instruction, and the bytes after it. -/
  | ok (i : Instr) (rest : List Byte)
  /-- The first byte has "no handler registered for that byte value" (R49). -/
  | invalidOpcode (b : Byte)
  /-- The list ends before the instruction does: no byte at all, or an operand byte lacking. In the machine
  it cannot arise, since every fetched byte exists (R35). -/
  | truncated
deriving DecidableEq, Repr

/-- Take one operand byte (format R, R43). -/
def operand1 (mk : Byte → Instr) : List Byte → Decoded
  | ra :: rest => .ok (mk ra) rest
  | [] => .truncated

/-- Take two operand bytes (formats RR and RI, R44, R45): the first operand stands at the lower address (R31). -/
def operand2 (mk : Byte → Byte → Instr) : List Byte → Decoded
  | ra :: b :: rest => .ok (mk ra b) rest
  | _ => .truncated

/-- Read a handler's own operand bytes (R51, R58). -/
def Handler.decodeOperands : Handler → List Byte → Decoded
  | .hlt => .ok .hlt
  | .ldi => operand2 .ldi
  | .mul => operand2 .mul
  | .add => operand2 .add
  | .prn => operand1 .prn
  | .push => operand1 .push
  | .pop => operand1 .pop
  | .call => operand1 .call
  | .ret => .ok .ret
  | .jmp => operand1 .jmp

/-- Decode the instruction at the head of a list of bytes, lowest address first (R41, R51). -/
def decode : List Byte → Decoded
  | [] => .truncated
  | b :: rest =>
    match decodeOpcode b with
    | some h => h.decodeOperands rest
    | none => .invalidOpcode b

/-- The instruction of a decoding, if it has one. -/
def Decoded.instr? : Decoded → Option Instr
  | .ok i _ => some i
  | .invalidOpcode _ => none
  | .truncated => none

/-- The handler an instruction runs (R59, R62). -/
def Instr.handler : Instr → Handler
  | .hlt => .hlt
  | .ldi _ _ => .ldi
  | .mul _ _ => .mul
  | .add _ _ => .add
  | .prn _ => .prn
  | .push _ => .push
  | .pop _ => .pop
  | .call _ => .call
  | .ret => .ret
  | .jmp _ => .jmp

/-- Length of an instruction in bytes (R41). -/
def Instr.length (i : Instr) : Nat := i.handler.format.length

/-- The bytes of an instruction, lowest address first (R41 to R45, R52). -/
def encode : Instr → List Byte
  | .hlt => [opcHLT]
  | .ldi ra imm => [opcLDI, ra, imm]
  | .mul ra rb => [opcMUL, ra, rb]
  | .add ra rb => [opcADD, ra, rb]
  | .prn ra => [opcPRN, ra]
  | .push ra => [opcPUSH, ra]
  | .pop ra => [opcPOP, ra]
  | .call ra => [opcCALL, ra]
  | .ret => [opcRET]
  | .jmp ra => [opcJMP, ra]

/-- The three bytes of an instruction given as `nbits` bits, bit 0 the least significant bit of the first
byte; every bit from `nbits` up is 0. Three bytes is the longest instruction (R41). -/
def tableBytes (nbits w : Nat) : List Byte :=
  let v := w % 2 ^ nbits
  [BitVec.ofNat 8 v, BitVec.ofNat 8 (v / 256), BitVec.ofNat 8 (v / 65536)]

/-- The instruction the decoder reads from the bits `w` of a row of spec/opcode_table.json. -/
def decodeTableWord (nbits w : Nat) : Option Instr := (decode (tableBytes nbits w)).instr?

end Sys2Proof
end

