-- ==== Sys2Proof/Config.lean ====
section
/-! DEFINITION. The parameters of spec/00_scope.md R5 that fix the shape of the machine and the reset values.
The opcode bytes `OPC_*` stand in Decode.lean, `MEM_INIT` of an unlisted cell in Machine/Ops.lean and the
choice of `REG_INDEX_POLICY` in Machine/Operands.lean, each beside the function that uses it. The core has no
free value: spec/93_implementation_defined.md, section 1, "No row is treated as `any value`". One choice of the
external loader is left free (`overlongPolicy`). -/

namespace Sys2Proof.Config

/-- `MEM_SIZE` (R5, R21; the spec's decision D2, log entry 2). -/
def memSize : Nat := 256

/-- `SP_INDEX`: register 7 doubles as the stack pointer (R5, R13). -/
def spIndex : RegIdx := 7

/-- `PC_RESET` (R5, R26). -/
def pcReset : Byte := 0x00

/-- `GPR_RESET`, for `x[0]` to `x[6]` (R5, R26). -/
def gprReset : Byte := 0x00

/-- `SP_RESET`, for `x[7]` (R5, R26; the spec's decision D4, log entry 4). -/
def spReset : Byte := 0xF4

/-- `IR_RESET` (R5, R26; the spec's decision D5, log entry 5). -/
def irReset : Byte := 0x00

/-- The two values `REG_INDEX_POLICY` can take (R5, R85). -/
inductive RegIndexPolicy
  /-- A register operand byte above 7 raises InvalidRegisterIndex (the spec's choice, decision D7). -/
  | fault
  /-- "the check is dropped and the index is `r[2:0]`" (R85; not the spec's choice). -/
  | mask
deriving DecidableEq, Repr

/-- What a loader may do with a program of more than 256 bytes: it "must refuse or truncate" it
(spec/92_eei_decisions.md D27, for spec/70_reset_and_hazards.md R99). -/
inductive OverlongPolicy
  /-- Nothing of the program is loaded. -/
  | refuse
  /-- The bytes for addresses 0 to 255 are loaded, the rest is dropped. -/
  | truncate
deriving DecidableEq, Repr, Inhabited

/-- Which of the two the loader does: "which, is not this spec's to say" (D27), so it is a free value, the same in
every run and unknown to every proof (log entry 22). -/
opaque overlongPolicy : OverlongPolicy

end Sys2Proof.Config
end

