-- ==== Sys2Proof/Machine/State.lean ====
section
/-! DEFINITION. The state of CA1 CORE: everything spec/10_state.md gives the machine (R11 to R26), as plain
data, and its value after reset (R26, R97). There are no flags, no status or mask register, no mode and no
interrupt bit (R18, R19, R25; spec/60_exceptions.md R93). -/

namespace Sys2Proof.Machine

/-- The run state of the execution cycle (R17). -/
inductive RunState
  /-- Ticks execute instructions. -/
  | running
  /-- Terminal: ticks do nothing until reset (R67). -/
  | halted
deriving DecidableEq, Repr

/-- The causes of the two faults of the core (R83). They are reported in a diagnostic record; taking one is
a next state (R87), not an outcome `fault` of a step. -/
inductive Cause
  /-- Cause code 1: the fetched byte has no handler (R84). -/
  | invalidOpcode
  /-- Cause code 2: a register operand byte is above 7 (R85). -/
  | invalidRegisterIndex
deriving DecidableEq, Repr

/-- One diagnostic record `(cause, address, opcode)` (R23, R95). -/
structure DiagRecord where
  cause : Cause
  address : Byte
  opcode : Byte
deriving DecidableEq, Repr

/-- Memory `M[0..255]` (R21): the cells that differ from what an unlisted cell reads as, in the canonical
form `Memory.wf` of Machine/Ops.lean. -/
abbrev Memory := List Host.Cell

/-- All the state of the machine. -/
structure State where
  /-- General registers `x[0]` to `x[7]`; `x[7]` is the stack pointer (R11, R13). -/
  x : Vector Byte 8
  /-- Program counter (R15). -/
  pc : Byte
  /-- Instruction register: the opcode byte fetched last (R16). -/
  ir : Byte
  /-- Run state (R17). -/
  run : RunState
  /-- Memory (R21). -/
  mem : Memory
  /-- Output stream: the bytes PRN has emitted since reset, oldest first (R22). -/
  out : List Byte
  /-- Diagnostic stream: the fault records since reset, oldest first (R23). -/
  diag : List DiagRecord
deriving DecidableEq, Repr

/-- What would stop the machine outside the spec's description: NOTHING DOES, so the type has no
constructor. Both faults of the spec halt the core with a diagnostic (R87), which is a next state, and R86
lists what else is no fault; a memory address always exists (R35). -/
inductive Fault
deriving DecidableEq, Repr

/-- Why a step has no meaning in this model. -/
inductive Refusal
  /-- Raised by an arm of `exec` whose instruction has no meaning yet, with its mnemonic in
  spec/opcode_table.json (safe: it stops). No arm raises it. -/
  | notModelled (mnemonic : String)
deriving DecidableEq, Repr

/-- What a step or a meaning answers. -/
abbrev Result := Host.Outcome State Fault Refusal

/-- The general registers after reset (R26, R97): 0x00 in `x[0]` to `x[6]`, `SP_RESET` in `x[7]`. -/
def resetRegs : Vector Byte 8 :=
  #v[Config.gprReset, Config.gprReset, Config.gprReset, Config.gprReset, Config.gprReset, Config.gprReset,
    Config.gprReset, Config.spReset]

/-- The machine right after reset (R26, R97), its memory with nothing listed: no program is in it (log
entries 15 and 19). -/
def State.reset : State where
  x := resetRegs
  pc := Config.pcReset
  ir := Config.irReset
  run := .running
  mem := []
  out := []
  diag := []

end Sys2Proof.Machine
end

