-- ==== Sys2Proof/Machine/Ops.lean ====
section
/-! DEFINITION. The named operations over memory, registers and the streams: the pseudocode primitives of
spec/00_scope.md R7, the memory contract of spec/20_memory.md, the `register_file` contract of
spec/10_state.md R14, fetching an instruction (spec/40_execution_cycle.md R57, R58), and taking a fault
(spec/60_exceptions.md R87). There is no return from a fault (R90): only reset leaves HALTED. -/

namespace Sys2Proof.Machine

/-- The value a register or `pc` stores for any integer a rule computes: `v mod 256` (R6, R12, R15). -/
def maskByte (v : Int) : Byte := BitVec.ofInt 8 v

/-! ### Memory (R21, R27, R28, R35): 256 cells, no address out of range, no side effect of a read -/

/-- What a cell reads as that `MEM_INIT` and no write has set otherwise. `MEM_INIT` is left open by the spec
(R5, decision D15): the memory of the start state is the argument, and this is the byte of every cell that
the start state does not list. DESIGN CHOICE, unsafe (log entry 15). -/
def memInit (_a : Nat) : Byte := 0x00

/-- `MemRead` on a memory (R27). -/
def Memory.read (m : Memory) (a : Byte) : Byte := (m.lookup a.toNat).getD (memInit a.toNat)

/-- Put a cell at its place by address. -/
def Memory.insert (c : Host.Cell) : Memory → Memory
  | [] => [c]
  | d :: m => if c.1 < d.1 then c :: d :: m else d :: Memory.insert c m

/-- `MemWrite` on a memory (R28). Writing what an unlisted cell reads as removes the entry. -/
def Memory.write (m : Memory) (a v : Byte) : Memory :=
  let rest := m.filter (fun c => c.1 != a.toNat)
  if v = memInit a.toNat then rest else Memory.insert (a.toNat, v) rest

/-- The canonical form: addresses strictly rising, each one of the 256 (R21), no entry equal to what an
unlisted cell reads as. -/
abbrev Memory.wf (m : Memory) : Prop :=
  m.Pairwise (fun c d => c.1 < d.1) ∧ ∀ c ∈ m, c.1 < Config.memSize ∧ c.2 ≠ memInit c.1

/-- `MemRead(addr, 1)` (R7, R27). -/
def State.memRead (s : State) (a : Byte) : Byte := s.mem.read a

/-- `MemWrite(addr, 1, v)` (R7, R28). -/
def State.memWrite (s : State) (a v : Byte) : State := { s with mem := s.mem.write a v }

/-! ### The register file (R11 to R16) -/

/-- `get(i)`, the read of `x[i]` (R14). -/
def State.get (s : State) (i : RegIdx) : Byte := s.x[i.val]

/-- `set(i, v)`, the write `x[i] <- v`: the value is masked to 8 bits (R12, R14). -/
def State.set (s : State) (i : RegIdx) (v : Int) : State := { s with x := s.x.set i.val (maskByte v) }

/-- `getPC()` (R14). -/
def State.getPC (s : State) : Byte := s.pc

/-- `setPC(v)`, the write `pc <- v mod 256` (R14, R15). -/
def State.setPC (s : State) (v : Int) : State := { s with pc := maskByte v }

/-- `getSP()`, another name of `x[7]` (R13, R14). -/
def State.getSP (s : State) : Byte := s.get Config.spIndex

/-- `x[7] <- x[7] -8 1`, the pre-decrement of a push (R76); it wraps (R35, decision D9, log entry 9). -/
def State.decSP (s : State) : State := s.set Config.spIndex ((s.getSP.toNat : Int) - 1)

/-- `x[7] <- x[7] +8 1`, the post-increment of a pop (R76); it wraps (R35, decision D9, log entry 9). -/
def State.incSP (s : State) : State := s.set Config.spIndex ((s.getSP.toNat : Int) + 1)

/-! ### Next pc (R63) -/

/-- `pc <- a0 +8 n`: past the instruction's own bytes (R63), modulo 256 (R15). -/
def State.advancePC (s : State) (n : Nat) : State := s.setPC ((s.getPC.toNat : Int) + n)

/-! ### Output, stop and faults -/

/-- `Output(v)`: the byte goes to the output sink, which always accepts it (R75). -/
def State.output (s : State) (v : Byte) : State := { s with out := s.out ++ [v] }

/-- `Stop()` (R66): `run <- HALTED` and nothing else. -/
def State.stop (s : State) : State := { s with run := .halted }

/-- The numeric cause codes (R83; decision D12, log entry 12). -/
def Cause.code : Cause → Nat
  | .invalidOpcode => 1
  | .invalidRegisterIndex => 2

/-- `raise F(addr, opcode)`: taking a fault (R87). The core halts and hands one record to the diagnostic sink
(R95); `pc` keeps the address of the faulting instruction, and nothing is saved anywhere else. -/
def State.raise (s : State) (c : Cause) (addr opcode : Byte) : State :=
  { s.stop with diag := s.diag ++ [⟨c, addr, opcode⟩] }

/-! ### Fetch (R57, R58) -/

/-- `ir <- MemRead(a0, 1)` with `a0 = pc` (R57); `pc` is not changed. -/
def State.fetchOpcode (s : State) : State := { s with ir := s.memRead s.getPC }

/-- How many bytes the instruction with this opcode has; on the invalid-opcode path no operand byte is read
(R41, R58, R60). -/
def fetchLength (b : Byte) : Nat :=
  match decodeOpcode b with
  | some h => h.format.length
  | none => 1

/-- The instruction's bytes at `pc`, `pc +8 1`, `pc +8 2`, as many as its format has (R41, R58). -/
def State.fetchBytes (s : State) : List Byte :=
  (List.range (fetchLength (s.memRead s.getPC))).map fun k => s.memRead (s.getPC + BitVec.ofNat 8 k)

/-- The instruction at `pc`; none when its opcode byte has no handler (R59). -/
def State.fetchInstr (s : State) : Option Instr := (decode s.fetchBytes).instr?

end Sys2Proof.Machine
end

