-- ==== Sys2Proof/Machine/Operands.lean ====
section
/-! DEFINITION. Operand forms: the register operand byte (spec/30_encoding.md R46), the immediate (R47) and the
register-operand check of the dispatcher (spec/40_execution_cycle.md R61). -/

namespace Sys2Proof.Machine

/-- `REG_INDEX_POLICY` (R5): the spec takes `fault` (R85, decision D7, log entry 7). -/
def regIndexPolicy : Config.RegIndexPolicy := .fault

/-- The register an operand byte names under a policy (R46, R85): under `fault` the whole byte is compared
with 7, under `mask` the index is `r[2:0]`. -/
def regOperandUnder (p : Config.RegIndexPolicy) (b : Byte) : Option RegIdx :=
  match p with
  | .fault => if h : b.toNat ≤ 7 then some ⟨b.toNat, by omega⟩ else none
  | .mask => some (b.extractLsb' 0 3).toFin

/-- The register an operand byte names in this hardware, or none (R46). -/
def regOperand (b : Byte) : Option RegIdx := regOperandUnder regIndexPolicy b

/-- The fault a bad register operand raises: `raise InvalidRegisterIndex(a0, ir)` (R61). -/
def State.badRegister (s : State) : State := s.raise .invalidRegisterIndex s.getPC s.ir

/-- Check one register operand, before the handler changes anything, then run the handler (R61, R62). -/
def withReg (ra : Byte) (s : State) (handler : RegIdx → State) : Result :=
  match regOperand ra with
  | some a => .next (handler a)
  | none => .next s.badRegister

/-- Check the two register operands of format RR together, then run the handler (R61, R62, R89). -/
def withRegs (ra rb : Byte) (s : State) (handler : RegIdx → RegIdx → State) : Result :=
  match regOperand ra, regOperand rb with
  | some a, some b => .next (handler a b)
  | _, _ => .next s.badRegister

/-- LDI's immediate: the byte as it stands, an unsigned value 0..255 (R47). -/
def immediate (imm : Byte) : Int := imm.toNat

end Sys2Proof.Machine
end

