-- ==== Sys2Proof/Machine/Alu.lean ====
section
/-! DEFINITION. The `alu` sub-block, MUL and ADD (spec/43_alu.md). -/

namespace Sys2Proof.Machine

/-- The two operations of the ALU (R70). -/
inductive AluOp
  | add
  | mul
deriving DecidableEq, Repr

/-- `alu_fn(op, a, b)` (R70): the sum or product of two unsigned bytes, modulo 256; no carry, overflow, zero
or sign output. -/
def aluFn (op : AluOp) (a b : Byte) : Byte :=
  match op with
  | .add => BitVec.ofNat 8 ((a.toNat + b.toNat) % 256)
  | .mul => BitVec.ofNat 8 ((a.toNat * b.toNat) % 256)

/-- `apply(op, ra, rb)` (R70): both sources are read, then the result is written back into `regA`. -/
def State.aluApply (s : State) (op : AluOp) (a b : RegIdx) : State :=
  s.set a (aluFn op (s.get a) (s.get b)).toNat

/-- MUL (R71): `x[ra] <- (x[ra] * x[rb]) mod 256; pc <- a0 +8 3`. -/
def execMul (ra rb : Byte) (s : State) : Result :=
  withRegs ra rb s fun a b => (s.aluApply .mul a b).advancePC 3

/-- ADD (R72): `x[ra] <- (x[ra] + x[rb]) mod 256; pc <- a0 +8 3`. -/
def execAdd (ra rb : Byte) (s : State) : Result :=
  withRegs ra rb s fun a b => (s.aluApply .add a b).advancePC 3

end Sys2Proof.Machine
end

