-- ==== Sys2Proof/Machine/Stack.lean ====
section
/-! DEFINITION. PUSH and POP (spec/45_stack.md). The statements of a rule run in the order written, a later one
sees the writes of an earlier one (R7), also when the operand is `x[7]` (decision D13, log entry 13). -/

namespace Sys2Proof.Machine

/-- `x[7] <- x[7] -8 1; MemWrite(x[7], 1, v)`, the push shared by PUSH and CALL (R76); the value is taken from
the state after the decrement (R77). -/
def State.pushByte (s : State) (v : State → Byte) : State :=
  s.decSP.memWrite s.decSP.getSP (v s.decSP)

/-- PUSH (R77): `x[7] <- x[7] -8 1; MemWrite(x[7], 1, x[ra]); pc <- a0 +8 2`. -/
def execPush (ra : Byte) (s : State) : Result :=
  withReg ra s fun a => (s.pushByte fun t => t.get a).advancePC 2

/-- POP (R78): `x[ra] <- MemRead(x[7], 1); x[7] <- x[7] +8 1; pc <- a0 +8 2`. -/
def execPop (ra : Byte) (s : State) : Result :=
  withReg ra s fun a => (s.set a (s.memRead s.getSP).toNat).incSP.advancePC 2

end Sys2Proof.Machine
end

