-- ==== Sys2Proof/Machine/Control.lean ====
section
/-! DEFINITION. CALL, RET and JMP (spec/46_control_transfer.md): the only control transfers, all unconditional
and absolute (R82). -/

namespace Sys2Proof.Machine

/-- CALL (R79): `x[7] <- x[7] -8 1; MemWrite(x[7], 1, a0 +8 2); pc <- x[ra]`, the target read after the
decrement (decision D13, log entry 13). -/
def execCall (ra : Byte) (s : State) : Result :=
  withReg ra s fun a =>
    let t := s.pushByte fun u => u.getPC + 2
    t.setPC (t.get a).toNat

/-- RET (R80): `pc <- MemRead(x[7], 1); x[7] <- x[7] +8 1`. -/
def execRet (s : State) : Result := .next (s.setPC (s.memRead s.getSP).toNat).incSP

/-- JMP (R81): `pc <- x[ra]`. -/
def execJmp (ra : Byte) (s : State) : Result :=
  withReg ra s fun a => s.setPC (s.get a).toNat

end Sys2Proof.Machine
end

