-- ==== Sys2Proof/Machine/Halt.lean ====
section
/-! DEFINITION. HLT (spec/41_halt.md). -/

namespace Sys2Proof.Machine

/-- HLT (R68): the effect is exactly that of `Stop()`; `pc` stays at the HLT byte (decision D10, log
entry 10). -/
def execHlt (s : State) : Result := .next s.stop

end Sys2Proof.Machine
end

