-- ==== Sys2Proof/Machine/Load.lean ====
section
/-! DEFINITION. LDI (spec/42_load_immediate.md). -/

namespace Sys2Proof.Machine

/-- LDI (R69): `x[ra] <- imm; pc <- a0 +8 3`. -/
def execLdi (ra imm : Byte) (s : State) : Result :=
  withReg ra s fun a => (s.set a (immediate imm)).advancePC 3

end Sys2Proof.Machine
end

