-- ==== Sys2Proof/Machine/Output.lean ====
section
/-! DEFINITION. PRN (spec/44_output.md). -/

namespace Sys2Proof.Machine

/-- PRN (R74): `Output(x[ra]); pc <- a0 +8 2`. -/
def execPrn (ra : Byte) (s : State) : Result :=
  withReg ra s fun a => (s.output (s.get a)).advancePC 2

end Sys2Proof.Machine
end

