-- ==== Sys2Proof/Machine/Dispatch.lean ====
section
/-! DEFINITION. The dispatcher: exactly one handler per instruction (spec/40_execution_cycle.md R62, R65). -/

namespace Sys2Proof.Machine

/-- Run one decoded instruction (R62), at a state whose `pc` is its address `a0` and whose `ir` holds its
opcode (R57). -/
def exec (i : Instr) (s : State) : Host.Outcome State Fault Refusal :=
  match i with
  | .hlt => Sys2Proof.Machine.execHlt s
  | .ldi ra imm => Sys2Proof.Machine.execLdi ra imm s
  | .mul ra rb => Sys2Proof.Machine.execMul ra rb s
  | .add ra rb => Sys2Proof.Machine.execAdd ra rb s
  | .prn ra => Sys2Proof.Machine.execPrn ra s
  | .push ra => Sys2Proof.Machine.execPush ra s
  | .pop ra => Sys2Proof.Machine.execPop ra s
  | .call ra => Sys2Proof.Machine.execCall ra s
  | .ret => Sys2Proof.Machine.execRet s
  | .jmp ra => Sys2Proof.Machine.execJmp ra s

end Sys2Proof.Machine
end

