-- ==== Sys2Proof/Machine/Step.lean ====
section
/-! DEFINITION. One step of the machine is one tick (spec/40_execution_cycle.md R55 to R65). -/

namespace Sys2Proof.Machine

/-- The tick (R65): nothing when HALTED (R55); else fetch the opcode into `ir` (R57), raise InvalidOpcode when
it has no handler (R60), else run the one handler it names with its operand bytes (R58, R61, R62). -/
def step (s : State) : Host.Outcome State Fault Refusal :=
  match s.run with
  | .halted => .next s
  | .running =>
    match s.fetchInstr with
    | none => .next (s.fetchOpcode.raise .invalidOpcode s.getPC s.fetchOpcode.ir)
    | some i => exec i s.fetchOpcode

/-- `s` with the instruction of bits `w` stored where the next tick fetches: its three bytes (those past the
instruction are 0) at `pc`, `pc +8 1`, `pc +8 2` (R41, R58), and the core RUNNING, which a fetch needs (R55).
It stands for the external loader (R99, log entry 19). -/
def State.withFetchWord (s : State) (nbits w : Nat) : State :=
  let bs := tableBytes nbits w
  let t := { s with run := .running }
  ((t.memWrite s.pc (bs.getD 0 0)).memWrite (s.pc + 1) (bs.getD 1 0)).memWrite (s.pc + 2) (bs.getD 2 0)

end Sys2Proof.Machine
end

