-- ==== Sys2Proof/Machine/Flags.lean ====
section
/-! DEFINITION. There are no flags, condition codes or predicates (spec/10_state.md R18): no instruction
computes one. What stands here is the one status bit the core shows outside, the level output `halted`
(spec/00_scope.md R9, R17), and the halt cause the host reads off `diag` and `ir` (spec/60_exceptions.md R91;
the core keeps no halt-cause register, decision D23). -/

namespace Sys2Proof.Machine

/-- The output `halted`, 1 exactly when `run = HALTED` (R9, R17). -/
def State.haltedOut (s : State) : Bool := decide (s.run = .halted)

/-- The three ways a run ends (R91, R104). -/
inductive HaltCause
  /-- A fault: `diag` is not empty and holds its cause. -/
  | fault (c : Cause)
  /-- The program executed HLT. -/
  | hltExecuted
  /-- An external `stop`. -/
  | stopped
deriving DecidableEq, Repr

/-- How the host tells the ends of a run apart (R91); none while the core is RUNNING. -/
def State.haltCause (s : State) : Option HaltCause :=
  match s.run, s.diag with
  | .running, _ => none
  | .halted, r :: _ => some (.fault r.cause)
  | .halted, [] => if s.ir = opcHLT then some .hltExecuted else some .stopped

end Sys2Proof.Machine
end

