-- ==== Sys2Proof/Machine/Transactions.lean ====
section
/-! DEFINITION. The transactions of the core's interface (spec/00_scope.md R9): `tick` is `step`; `reset`
(spec/70_reset_and_hazards.md R97), `stop` (spec/40_execution_cycle.md R66) and `poke` (spec/20_memory.md R29)
come from outside and fall wholly between two ticks (R56, R102). -/

namespace Sys2Proof.Machine

/-- `reset` (R97): every piece of core state takes its reset value; memory is not touched. -/
def State.resetCore (s : State) : State := { State.reset with mem := s.mem }

/-- `poke(address, value)` (R29): exactly the effect of `MemWrite`, accepted in any run state. -/
def State.poke (s : State) (a v : Byte) : State := s.memWrite a v

/-- The transactions the outside world can apply (R9). -/
inductive Transaction
  /-- One instruction executes if RUNNING (R55). -/
  | tick
  /-- `run <- HALTED` (R66). -/
  | stop
  /-- A memory write for the external loader (R29). -/
  | poke (address value : Byte)
  /-- Every piece of core state takes its reset value (R97). -/
  | reset
deriving DecidableEq, Repr

/-- Apply one transaction (R9). -/
def transact (tr : Transaction) (s : State) : Result :=
  match tr with
  | .tick => step s
  | .stop => .next s.stop
  | .poke a v => .next (s.poke a v)
  | .reset => .next s.resetCore

/-- Apply transactions one after the other: they are serialised, never inside one another (R33, R56). -/
def runTransactions : List Transaction → State → Result
  | [], s => .next s
  | tr :: trs, s =>
    match transact tr s with
    | .next t => runTransactions trs t
    | .fault f => .fault f
    | .refused r => .refused r

/-- `stop` and `tick` presented together: `stop` is taken first (R56; decision D17, log entry 17). -/
def State.stopAndTick (s : State) : Result := runTransactions [.stop, .tick] s

/-- The pokes of a loader that writes bytes "at ascending addresses" from address `n` on, one byte per poke
(R99). "Address 255 is the last": no byte is poked past it. -/
def loadFrom (n : Nat) : List Byte → List Transaction
  | [] => []
  | b :: bs => if n < Config.memSize then .poke (BitVec.ofNat 8 n) b :: loadFrom (n + 1) bs else []

/-- The pokes that load a program from address 0 (R99). A program of more than 256 bytes cannot be loaded: the
loader refuses it, or truncates it (decision D27, log entry 22). -/
def loadUnder (policy : Config.OverlongPolicy) (program : List Byte) : List Transaction :=
  if program.length ≤ Config.memSize then loadFrom 0 program
  else match policy with
    | .refuse => []
    | .truncate => loadFrom 0 program

/-- What is done before the first tick (R99): reset, then the loader's pokes. Which of its two courses the loader
takes with a program of more than 256 bytes is free (decision D27, log entry 22). -/
def boot (program : List Byte) : List Transaction := .reset :: loadUnder Config.overlongPolicy program

end Sys2Proof.Machine
end

