-- ==== Sys2Proof/WellFormed.lean ====
section
/-! DEFINITION. Well-formed instructions: every operand byte that names a register names one of `x[0]` to
`x[7]` (spec/30_encoding.md R46). An immediate is never checked (R47). An instruction that is not
well-formed still has a meaning: it raises InvalidRegisterIndex (R61). -/

namespace Sys2Proof

/-- "A register operand byte `r` names general register `x[r]` when `0 <= r <= 7`" (R46): the whole byte is
compared, not only its low three bits. -/
def namesRegister (b : Byte) : Bool := decide (b.toNat ≤ 7)

/-- The register operands of an instruction all name registers (R46, R61). -/
def Instr.wellFormed : Instr → Bool
  | .hlt => true
  | .ldi ra _ => namesRegister ra
  | .mul ra rb => namesRegister ra && namesRegister rb
  | .add ra rb => namesRegister ra && namesRegister rb
  | .prn ra => namesRegister ra
  | .push ra => namesRegister ra
  | .pop ra => namesRegister ra
  | .call ra => namesRegister ra
  | .ret => true
  | .jmp ra => namesRegister ra

end Sys2Proof
end

