-- ==== Sys2Proof/Safety.lean ====
section
/-! DEFINITION. What claims are made of: the frame predicates (what a step leaves unchanged) and the invariant
of every reachable state. -/

namespace Sys2Proof.Machine

/-- Every general register but those listed reads as before. -/
def regsKeptBut (written : List RegIdx) (s t : State) : Prop := ∀ j, j ∉ written → t.get j = s.get j

/-- Every byte of memory but the one at `a` reads as before. -/
def memKeptBut (a : Byte) (s t : State) : Prop := ∀ b, b ≠ a → t.memRead b = s.memRead b

/-- Every byte of memory reads as before. -/
def memKept (s t : State) : Prop := ∀ b, t.memRead b = s.memRead b

/-- What no instruction that neither halts, nor prints, nor faults changes beside registers, pc and memory:
`ir`, `run`, `out`, `diag` (R64). -/
def coreKept (s t : State) : Prop := t.ir = s.ir ∧ t.run = s.run ∧ t.out = s.out ∧ t.diag = s.diag

/-- The state a fault leaves (R87): nothing changes but `run` and one record more in `diag`. -/
def faulted (s : State) (c : Cause) (addr opcode : Byte) : State :=
  { s with run := .halted, diag := s.diag ++ [⟨c, addr, opcode⟩] }

/-- The instructions that write a register, by opcode byte: LDI, MUL, ADD and POP write `x[ra]` (R11). -/
def writesRa (b : Byte) : Prop := b = opcLDI ∨ b = opcMUL ∨ b = opcADD ∨ b = opcPOP

/-- The instructions that write `x[7]` as stack pointer: PUSH, POP, CALL and RET (R11). -/
def movesSP (b : Byte) : Prop := b = opcPUSH ∨ b = opcPOP ∨ b = opcCALL ∨ b = opcRET

/-- The diagnostics of a state are those of R83: none, or one record about the instruction at `pc`, whose
cause is 1 exactly when its opcode has no handler, and 2 only for an instruction with a register operand. -/
def State.diagOk (s : State) : Prop :=
  s.diag = [] ∨ ∃ c, s.diag = [⟨c, s.pc, s.ir⟩] ∧ s.run = .halted ∧
    (c = .invalidOpcode ↔ decodeOpcode s.ir = none) ∧
    (c = .invalidRegisterIndex → ∃ h, decodeOpcode s.ir = some h ∧ h.format ≠ .z)

/-- The invariant of every reachable state: memory is in its canonical form; `diag` is as R23 and R83 say; and
while the core is RUNNING, `ir` is its reset value or a legal opcode other than HLT, since a fetched HLT
always executes and an illegal opcode halts (R91). -/
def State.Inv (s : State) : Prop :=
  s.mem.wf ∧ s.diagOk ∧
    (s.run = .running → s.ir ≠ opcHLT ∧ (s.ir = Config.irReset ∨ decodeOpcode s.ir ≠ none))

end Sys2Proof.Machine
end

