-- ==== Sys2Proof/Certificates/Slice0/Obligations.lean ====
section
/-! DEFINITION. The statements about the model, each from the rules of spec/. A register operand is always the
raw operand byte: `ra.toNat = a.val` says it names the register `a`; what happens when it is above 7 is said once
for all by BadRegisterOperandHaltsBeforeAnyWrite and IllFormedInstructionTakesTheFault. `Config.spIndex` is 7 (R5, R13). The opcode
bytes are the parameters `opcHLT` … `opcJMP` (the spec's decision D1, log entry 1). -/

open Sys2Proof Sys2Proof.Machine

/-! ### Encoding (spec/30_encoding.md) -/

/-- Decoding the encoding of any instruction, whatever its operand bytes and whatever follows, gives the
instruction back and leaves what follows (R41 to R45, R51). -/
def Obligations.DecodeOfEncodeIsIdentity : Prop :=
  ∀ (i : Instr) (rest : List Byte), decode (encode i ++ rest) = .ok i rest

/-- Each instruction has one spelling: bytes that decode to it are its encoding (R41 to R45, R48). -/
def Obligations.EncodeOfDecodeIsIdentity : Prop :=
  ∀ (bs : List Byte) (i : Instr) (rest : List Byte), decode bs = .ok i rest → encode i ++ rest = bs

/-- A few words written out bit by bit from the encoding tables (R42 to R45, R48). The opcode values are the
spec's decision D1 (log entry 1). -/
def Obligations.DecodeOfWordsWrittenFromTheTables : Prop :=
  decode [0b00000001#8] = .ok .hlt [] ∧
  decode [0b10011001#8, 0b00000011#8, 0b11111111#8] = .ok (.ldi 3 255) [] ∧
  decode [0b10101010#8, 0b00000001#8, 0b00000010#8] = .ok (.mul 1 2) [] ∧
  decode [0b10101000#8, 0b00000111#8, 0b00000000#8] = .ok (.add 7 0) [] ∧
  decode [0b01000011#8, 0b00000110#8] = .ok (.prn 6) [] ∧
  decode [0b01001101#8, 0b00000101#8] = .ok (.push 5) [] ∧
  decode [0b01001000#8, 0b00000100#8] = .ok (.call 4) [] ∧
  decode [0b11111111#8] = .invalidOpcode 0xFF

/-- Exactly the bytes other than the ten of R48 are refused, by name and with the byte, whatever follows
(R49). The ten values are the spec's decision D1 (log entry 1). -/
def Obligations.DecodeRefusesExactlyTheUnmappedOpcodes : Prop :=
  ∀ (b c : Byte) (rest : List Byte), decode (b :: rest) = .invalidOpcode c ↔
    c = b ∧ b ∉ ([0x01, 0x99, 0xAA, 0xA8, 0x43, 0x4D, 0x4C, 0x48, 0x09, 0x50] : List Byte)

/-! ### The tick (spec/40_execution_cycle.md) -/

/-- When the bytes at `pc` decode to an instruction, a tick of the RUNNING core is `exec` of it at the state
whose `ir` holds the opcode byte (R57, R58, R62). -/
def Obligations.StepRunsTheDecodedInstruction : Prop :=
  ∀ (s : State) (i : Instr) (rest : List Byte), s.run = .running →
    decode [s.memRead s.pc, s.memRead (s.pc + 1), s.memRead (s.pc + 2)] = .ok i rest →
    step s = exec i { s with ir := s.memRead s.pc }

/-- When memory holds the encoding of an instruction from `pc` on, across the end of memory too, a tick of the
RUNNING core runs that instruction, whatever it then overwrites (R31, R39, R58; that addresses wrap is the
spec's decision D3, log entry 3). -/
def Obligations.StepRunsTheEncodingStoredAtPc : Prop :=
  ∀ (s : State) (i : Instr), s.run = .running →
    (∀ (k : Nat) (h : k < (encode i).length), s.memRead (s.pc + BitVec.ofNat 8 k) = (encode i)[k]) →
    step s = exec i { s with ir := i.handler.opcode }

/-- A tick in HALTED has no effect at all, however many come; a tick in RUNNING executes exactly the one
instruction at `pc`, or takes the invalid-opcode path (R55, R65). -/
def Obligations.TickIsGatedByTheRunState : Prop :=
  ∀ s : State,
    (s.run = .halted → ∀ k : Nat, runTransactions (List.replicate k .tick) s = .next s) ∧
    (s.run = .running →
      (∃ i rest, decode [s.memRead s.pc, s.memRead (s.pc + 1), s.memRead (s.pc + 2)] = .ok i rest ∧
        step s = exec i s.fetchOpcode) ∨
      (decodeOpcode (s.memRead s.pc) = none ∧
        step s = .next (faulted s.fetchOpcode .invalidOpcode s.pc (s.memRead s.pc))))

/-- Every tick of the RUNNING core, one that faults too, leaves in `ir` the byte `pc` pointed to at its start,
and the fetch does not change `pc` (R57). -/
def Obligations.EveryTickFetchesItsOpcodeIntoIr : Prop :=
  ∀ s : State, s.run = .running →
    (∃ t, step s = .next t ∧ t.ir = s.memRead s.pc) ∧ s.fetchOpcode.pc = s.pc ∧
      s.fetchOpcode.ir = s.memRead s.pc

/-- A byte without a handler: the core halts, reports the address and the byte, and executes nothing further,
not in any later tick (R60). -/
def Obligations.UnmappedOpcodeHaltsWithOneRecord : Prop :=
  ∀ s : State, s.run = .running → decodeOpcode (s.memRead s.pc) = none → ∀ k : Nat,
    runTransactions (List.replicate (k + 1) .tick) s =
      .next { s with ir := s.memRead s.pc, run := .halted,
                     diag := s.diag ++ [⟨.invalidOpcode, s.pc, s.memRead s.pc⟩] }

/-- A register operand byte above 7, of any of the eight instructions that take one, halts the core before
anything of the instruction takes effect; in format RR either byte does (R61, R89). The fault is the spec's
decision D7 (log entry 7), its record decision D12 (log entry 12). -/
def Obligations.BadRegisterOperandHaltsBeforeAnyWrite : Prop :=
  ∀ (s : State) (h : Handler), s.run = .running → s.memRead s.pc = h.opcode → h.format ≠ .z →
    (7 < (s.memRead (s.pc + 1)).toNat ∨ (h.format = .rr ∧ 7 < (s.memRead (s.pc + 2)).toNat)) →
    step s = .next { s with ir := h.opcode, run := .halted,
                            diag := s.diag ++ [⟨.invalidRegisterIndex, s.pc, h.opcode⟩] }

/-- Every tick of the RUNNING core answers a next state, and it is one of three: still RUNNING with `diag` as
it was; a clean halt, by HLT only; a fault, with one record more (R65; the record is the spec's decision D12,
log entry 12). -/
def Obligations.TickOutcomeIsOneOfThree : Prop :=
  ∀ s : State, s.run = .running → ∃ t, step s = .next t ∧
    ((t.run = .running ∧ t.diag = s.diag ∧ s.memRead s.pc ≠ opcHLT) ∨
     (t.run = .halted ∧ t.diag = s.diag ∧ s.memRead s.pc = opcHLT) ∨
     (t.run = .halted ∧ s.memRead s.pc ≠ opcHLT ∧
       ∃ c, t.diag = s.diag ++ [⟨c, s.pc, s.memRead s.pc⟩]))

/-- Faults are precise: a tick that adds a diagnostic changes nothing but `ir`, `run` and `diag`, and reports
InvalidOpcode exactly when the opcode has no handler, whatever bytes follow it (R88, R89). That `pc` is
unchanged is the spec's decision D11 (log entry 11). -/
def Obligations.FaultingTickChangesOnlyIrRunDiag : Prop :=
  ∀ s t : State, step s = .next t → t.diag ≠ s.diag →
    ∃ c, t = { s with ir := s.memRead s.pc, run := .halted,
                      diag := s.diag ++ [⟨c, s.pc, s.memRead s.pc⟩] } ∧
      (c = .invalidOpcode ↔ decodeOpcode (s.memRead s.pc) = none)

/-- The value of `pc` after every tick of the RUNNING core (R63). HLT and a fault leave it (decisions D10 and
D11, log entries 10 and 11); `CALL R7` goes to the decremented SP (decision D13, log entry 13). -/
def Obligations.PcAfterEveryTick : Prop :=
  ∀ s : State, s.run = .running → ∃ t, step s = .next t ∧
    match decode [s.memRead s.pc, s.memRead (s.pc + 1), s.memRead (s.pc + 2)] with
    | .ok i _ =>
      (i.wellFormed = false → t.pc = s.pc) ∧
      (i.wellFormed = true →
        match i with
        | .hlt => t.pc = s.pc
        | .ldi _ _ => t.pc = s.pc + 3
        | .mul _ _ => t.pc = s.pc + 3
        | .add _ _ => t.pc = s.pc + 3
        | .prn _ => t.pc = s.pc + 2
        | .push _ => t.pc = s.pc + 2
        | .pop _ => t.pc = s.pc + 2
        | .call ra => ∀ a : RegIdx, ra.toNat = a.val →
            t.pc = if a = Config.spIndex then s.getSP - 1 else s.get a
        | .ret => t.pc = s.memRead s.getSP
        | .jmp ra => ∀ a : RegIdx, ra.toNat = a.val → t.pc = s.get a)
    | .invalidOpcode _ => t.pc = s.pc
    | .truncated => False

/-- The handler contract: for every well-formed instruction `exec` answers a next state; it leaves `ir` and
`diag`; `run` is HALTED after HLT and as before after every other instruction; `out` has the byte of its register
more after PRN and is as before after every other; `pc` is past the instruction's own bytes, or set by a transfer:
after CALL and JMP the register as the handler leaves it, after RET the byte SP pointed to; and all is the same
whatever `ir` holds (R64). That HLT leaves `pc` is the spec's decision D10 (log entry 10), the target of `CALL R7`
its decision D13 (log entry 13). -/
def Obligations.HandlerKeepsItsContract : Prop :=
  ∀ (i : Instr) (s : State), i.wellFormed = true → ∃ t, exec i s = .next t ∧
    t.ir = s.ir ∧ t.diag = s.diag ∧
    t.run = (if i = .hlt then .halted else s.run) ∧
    (match i with
      | .prn ra => ∀ a : RegIdx, ra.toNat = a.val → t.out = s.out ++ [s.get a]
      | _ => t.out = s.out) ∧
    (match i with
      | .hlt => t.pc = s.pc
      | .call ra => ∀ a : RegIdx, ra.toNat = a.val → t.pc = t.get a
      | .ret => t.pc = s.memRead s.getSP
      | .jmp ra => ∀ a : RegIdx, ra.toNat = a.val → t.pc = t.get a
      | _ => t.pc = s.pc + BitVec.ofNat 8 i.length) ∧
    ∀ b : Byte, exec i { s with ir := b } = .next { t with ir := b }

/-! ### Registers and the ALU (spec/10_state.md, spec/43_alu.md) -/

/-- Write masking: after `set(r, v)`, for any integer `v`, `get(r)` is `v mod 256`, and no other register
changes (R12; for a negative `v` this is the inference R12 marks as its own). -/
def Obligations.RegisterWriteIsMaskedToAByte : Prop :=
  ∀ (s : State) (i : RegIdx) (v : Int),
    (((s.set i v).get i).toNat : Int) = v % 256 ∧ regsKeptBut [i] s (s.set i v)

/-- A register changes in a tick only as the destination of LDI, MUL, ADD or POP, or as the stack pointer of
PUSH, POP, CALL or RET (R11). -/
def Obligations.RegistersChangeOnlyByTheirWriters : Prop :=
  ∀ (s t : State) (j : RegIdx), step s = .next t → t.get j ≠ s.get j →
    (writesRa (s.memRead s.pc) ∧ (s.memRead (s.pc + 1)).toNat = j.val) ∨
    (movesSP (s.memRead s.pc) ∧ j = Config.spIndex)

/-- The ALU: `apply` writes the sum or the product of the two registers modulo 256 into the first, both read
before the write, and touches nothing else (R70). -/
def Obligations.AluWritesResultModulo256 : Prop :=
  ∀ (op : AluOp) (s : State) (a b : RegIdx),
    ((s.aluApply op a b).get a).toNat =
      (match op with
        | .add => (s.get a).toNat + (s.get b).toNat
        | .mul => (s.get a).toNat * (s.get b).toNat) % 256 ∧
    regsKeptBut [a] s (s.aluApply op a b) ∧ memKept s (s.aluApply op a b) ∧
    (s.aluApply op a b).pc = s.pc ∧ coreKept s (s.aluApply op a b)

/-- The laws of the arithmetic: ADD commutes, 0 is its identity; MUL by 0 and by 1; the product's low byte is
also the low byte of the signed product; the document's two boundary cases (R73). -/
def Obligations.AluArithmeticLaws : Prop :=
  (∀ a b : Byte, aluFn .add a b = aluFn .add b a ∧ aluFn .add a 0 = a ∧ aluFn .mul a 0 = 0 ∧
    aluFn .mul a 1 = a ∧ aluFn .mul a b = BitVec.ofInt 8 (a.toInt * b.toInt)) ∧
  aluFn .add 255 1 = 0 ∧ aluFn .mul 255 2 = 254

/-! ### The instructions (spec/41_halt.md to spec/46_control_transfer.md): completion, result, frame -/

/-- HLT completes: the core halts, no diagnostic, nothing else changes; at the level of ticks `ir` holds its
byte and every further tick is ignored (R68). That `pc` stays is the spec's decision D10 (log entry 10). -/
def Obligations.HltHaltsCleanly : Prop :=
  ∀ s : State,
    (∃ t, exec .hlt s = .next t ∧ t.run = .halted ∧ t.pc = s.pc ∧ t.ir = s.ir ∧ t.out = s.out ∧
      t.diag = s.diag ∧ regsKeptBut [] s t ∧ memKept s t) ∧
    (s.run = .running → s.memRead s.pc = opcHLT → ∀ k : Nat,
      runTransactions (List.replicate (k + 1) .tick) s = .next { s with ir := opcHLT, run := .halted })

/-- LDI completes: `x[ra]` holds the immediate, `pc` is past the three bytes, nothing else changes (R69). -/
def Obligations.LdiLoadsTheImmediate : Prop :=
  ∀ (s : State) (ra imm : Byte) (a : RegIdx), ra.toNat = a.val → ∃ t, exec (.ldi ra imm) s = .next t ∧
    t.get a = imm ∧ t.pc = s.pc + 3 ∧ regsKeptBut [a] s t ∧ memKept s t ∧ coreKept s t

/-- MUL completes: `x[ra]` holds the product of the old `x[ra]` and `x[rb]` modulo 256, also for `ra = rb`;
`pc` is past the three bytes, nothing else changes (R71). -/
def Obligations.MulStoresTheProduct : Prop :=
  ∀ (s : State) (ra rb : Byte) (a b : RegIdx), ra.toNat = a.val → rb.toNat = b.val →
    ∃ t, exec (.mul ra rb) s = .next t ∧
    (t.get a).toNat = ((s.get a).toNat * (s.get b).toNat) % 256 ∧ t.pc = s.pc + 3 ∧
    regsKeptBut [a] s t ∧ memKept s t ∧ coreKept s t

/-- ADD completes: `x[ra]` holds the sum of the old `x[ra]` and `x[rb]` modulo 256, also for `ra = rb`; `pc` is
past the three bytes, nothing else changes (R72). -/
def Obligations.AddStoresTheSum : Prop :=
  ∀ (s : State) (ra rb : Byte) (a b : RegIdx), ra.toNat = a.val → rb.toNat = b.val →
    ∃ t, exec (.add ra rb) s = .next t ∧
    (t.get a).toNat = ((s.get a).toNat + (s.get b).toNat) % 256 ∧ t.pc = s.pc + 3 ∧
    regsKeptBut [a] s t ∧ memKept s t ∧ coreKept s t

/-- PRN completes: `out` grows by the byte `x[ra]`, `pc` is past the two bytes, nothing else changes (R74). -/
def Obligations.PrnEmitsTheRegister : Prop :=
  ∀ (s : State) (ra : Byte) (a : RegIdx), ra.toNat = a.val → ∃ t, exec (.prn ra) s = .next t ∧
    t.out = s.out ++ [s.get a] ∧ t.pc = s.pc + 2 ∧ regsKeptBut [] s t ∧ memKept s t ∧
    t.ir = s.ir ∧ t.run = s.run ∧ t.diag = s.diag

/-- PUSH completes: SP is one lower, modulo 256 (decision D9, log entry 9); the byte at the new SP is `x[ra]`
read after the decrement, for `R7` the decremented SP (decision D13, log entry 13); every other byte of
memory and every register but SP is kept (R77). -/
def Obligations.PushStoresBelowTheStackTop : Prop :=
  ∀ (s : State) (ra : Byte) (a : RegIdx), ra.toNat = a.val → ∃ t, exec (.push ra) s = .next t ∧
    t.getSP = s.getSP - 1 ∧
    (∀ addr : Byte, s.decSP.getSP = addr → addr = s.getSP - 1 ∧
      t.memRead addr = (if a = Config.spIndex then s.getSP - 1 else s.get a) ∧ memKeptBut addr s t) ∧
    t.pc = s.pc + 2 ∧ regsKeptBut [Config.spIndex] s t ∧ coreKept s t

/-- POP completes: `x[ra]` holds the byte SP pointed to and SP is one higher, modulo 256 (decision D9, log
entry 9); for `R7` SP ends as the popped byte plus one (decision D13, log entry 13); memory is kept
(R78). -/
def Obligations.PopLoadsTheStackTop : Prop :=
  ∀ (s : State) (ra : Byte) (a : RegIdx), ra.toNat = a.val → ∃ t, exec (.pop ra) s = .next t ∧
    (a ≠ Config.spIndex → t.get a = s.memRead s.getSP ∧ t.getSP = s.getSP + 1) ∧
    (a = Config.spIndex → t.getSP = s.memRead s.getSP + 1) ∧
    t.pc = s.pc + 2 ∧ regsKeptBut [a, Config.spIndex] s t ∧ memKept s t ∧ coreKept s t

/-- CALL completes: SP is one lower, modulo 256 (decision D9, log entry 9); the byte at the new SP is the
address after CALL's operand; `pc` is `x[ra]` read after the decrement, for `R7` the decremented SP (decision
D13, log entry 13); every other byte of memory and every register but SP is kept (R79). -/
def Obligations.CallPushesTheReturnAddress : Prop :=
  ∀ (s : State) (ra : Byte) (a : RegIdx), ra.toNat = a.val → ∃ t, exec (.call ra) s = .next t ∧
    t.getSP = s.getSP - 1 ∧
    (∀ addr : Byte, s.decSP.getSP = addr → addr = s.getSP - 1 ∧
      t.memRead addr = s.pc + 2 ∧ memKeptBut addr s t) ∧
    t.pc = (if a = Config.spIndex then s.getSP - 1 else s.get a) ∧
    regsKeptBut [Config.spIndex] s t ∧ coreKept s t

/-- RET completes: `pc` is the byte SP pointed to, SP is one higher modulo 256, and nothing else changes; the
stack cell keeps its byte (R80). -/
def Obligations.RetPopsThePc : Prop :=
  ∀ s : State, ∃ t, exec .ret s = .next t ∧ t.pc = s.memRead s.getSP ∧ t.getSP = s.getSP + 1 ∧
    regsKeptBut [Config.spIndex] s t ∧ memKept s t ∧ coreKept s t

/-- JMP completes: `pc` is `x[ra]` and nothing else changes (R81). -/
def Obligations.JmpSetsThePc : Prop :=
  ∀ (s : State) (ra : Byte) (a : RegIdx), ra.toNat = a.val → ∃ t, exec (.jmp ra) s = .next t ∧
    t.pc = s.get a ∧ regsKeptBut [] s t ∧ memKept s t ∧ coreKept s t

/-- An instruction one of whose register operand bytes is above 7, any of the eight that have one, takes
InvalidRegisterIndex in `exec`, with nothing of its effect (R61, R85). The fault is the spec's decision D7
(log entry 7), that `pc` stays its decision D11 (log entry 11), the record its decision D12 (log entry 12). -/
def Obligations.IllFormedInstructionTakesTheFault : Prop :=
  ∀ (i : Instr) (s : State), i.wellFormed = false →
    exec i s = .next { s with run := .halted, diag := s.diag ++ [⟨.invalidRegisterIndex, s.pc, s.ir⟩] }

/-! ### Programs of two instructions: the document's round trips -/

/-- PUSH then the matching POP of one register is a round trip: provided what runs between leaves SP and the
pushed byte as PUSH left them, the register and SP are as before, for `R7` too (R76; for `R7` by the
spec's decision D13, log entry 13). -/
def Obligations.PushThenPopIsARoundTrip : Prop :=
  ∀ (s : State) (ra : Byte) (a : RegIdx), ra.toNat = a.val → ∃ t, exec (.push ra) s = .next t ∧
    ∀ u : State, u.getSP = t.getSP → u.memRead t.getSP = t.memRead t.getSP →
      ∃ v, exec (.pop ra) u = .next v ∧ v.get a = s.get a ∧ v.getSP = s.getSP

/-- CALL then RET returns to the instruction after CALL and its operand, and SP to its value before CALL,
provided the subroutine leaves SP and the stack cell as CALL left them (R80). -/
def Obligations.CallThenRetReturns : Prop :=
  ∀ (s : State) (ra : Byte) (a : RegIdx), ra.toNat = a.val → ∃ t, exec (.call ra) s = .next t ∧
    ∀ u : State, u.getSP = t.getSP → u.memRead t.getSP = t.memRead t.getSP →
      ∃ v, exec .ret u = .next v ∧ v.pc = s.pc + 2 ∧ v.getSP = s.getSP

/-- A JMP to its own address runs for ever: after every number of ticks the core is RUNNING at the same `pc`
(R81, R104). -/
def Obligations.JumpToItselfNeverHalts : Prop :=
  ∀ (s : State) (a : RegIdx), s.run = .running → s.memRead s.pc = opcJMP →
    (s.memRead (s.pc + 1)).toNat = a.val → s.get a = s.pc → ∀ k : Nat,
      runTransactions (List.replicate (k + 1) .tick) s = .next { s with ir := opcJMP }

/-! ### Memory and the streams (spec/20_memory.md, spec/10_state.md) -/

/-- The write contract, and who writes: a tick changes no byte of memory but the one at the decremented SP,
and that only when its opcode is PUSH or CALL (R28). -/
def Obligations.OnlyPushAndCallWriteMemory : Prop :=
  (∀ (s : State) (a v b : Byte), (s.memWrite a v).memRead b = if b = a then v else s.memRead b) ∧
  ∀ s t : State, step s = .next t →
    memKeptBut s.decSP.getSP s t ∧
    (s.memRead s.pc ≠ opcPUSH → s.memRead s.pc ≠ opcCALL → memKept s t)

/-- The canonical form makes equal memories equal data: two memories in it that read alike at every address are
the same list (the model's form of R21, log entry 15). -/
def Obligations.MemoriesThatReadAlikeAreEqual : Prop :=
  ∀ m n : Memory, m.wf → n.wf → (∀ a : Byte, m.read a = n.read a) → m = n

/-- `out` only grows, by one byte, and only by PRN (R22; recording it is the spec's decision D20, log
entry 14). -/
def Obligations.OutputGrowsOnlyByPrn : Prop :=
  ∀ s t : State, step s = .next t →
    t.out = s.out ∨ (s.run = .running ∧ s.memRead s.pc = opcPRN ∧
      ∃ a : RegIdx, (s.memRead (s.pc + 1)).toNat = a.val ∧ t.out = s.out ++ [s.get a])

/-- The core never reads back what it has put out: a tick does the same whatever `out` and `diag` hold (R22,
R75). -/
def Obligations.StreamsAreNeverReadBack : Prop :=
  ∀ (s t : State) (o : List Byte) (d : List DiagRecord), step s = .next t →
    step { s with out := o ++ s.out, diag := d ++ s.diag } =
      .next { t with out := o ++ t.out, diag := d ++ t.diag }

/-! ### Transactions (spec/00_scope.md R9) -/

/-- `stop` changes `run` and nothing else, is idempotent, and is what HLT and the fault entry do (R66). -/
def Obligations.StopHaltsAndChangesNothingElse : Prop :=
  ∀ s : State, transact .stop s = .next { s with run := .halted } ∧
    runTransactions [.stop, .stop] s = transact .stop s ∧ (s.run = .halted → transact .stop s = .next s) ∧
    exec .hlt s = transact .stop s ∧
    ∀ (c : Cause) (addr opcode : Byte),
      .next (s.raise c addr opcode) =
        transact .stop { s with diag := s.diag ++ [⟨c, addr, opcode⟩] }

/-- `stop` presented together with `tick` is taken first, and neither that tick nor any later one does anything
(R56; the order is the spec's decision D17, log entry 17). -/
def Obligations.StopPresentedWithTickWins : Prop :=
  ∀ (s : State) (k : Nat), s.stopAndTick = .next { s with run := .halted } ∧
    runTransactions (.stop :: List.replicate k .tick) s = .next { s with run := .halted }

/-- A poke writes its one byte and nothing else, in any run state, and the next fetch sees it (R29, R39; when a
poke may come is the spec's decision D18, log entry 18). -/
def Obligations.PokeIsSeenByTheNextFetch : Prop :=
  ∀ (s : State) (a v : Byte), ∃ t, transact (.poke a v) s = .next t ∧
    t.memRead a = v ∧ memKeptBut a s t ∧ regsKeptBut [] s t ∧ t.pc = s.pc ∧ coreKept s t ∧
    (s.run = .running → a = s.pc → ∃ u, step t = .next u ∧ u.ir = v)

/-- HALTED is terminal: whatever transactions come, none of them reset, `run`, `pc`, `ir`, the registers, `out`
and `diag` keep their values (R67; a tick ignored in HALTED is the spec's decision D19, log entry 18). -/
def Obligations.HaltedIsTerminalUntilReset : Prop :=
  ∀ (trs : List Transaction) (s : State), s.run = .halted → .reset ∉ trs →
    ∃ t, runTransactions trs s = .next t ∧ t.run = .halted ∧ t.pc = s.pc ∧ t.ir = s.ir ∧
      regsKeptBut [] s t ∧ t.out = s.out ∧ t.diag = s.diag

/-- `reset` gives every piece of core state its reset value and leaves memory (R26, R97), and the model's
`State.reset` is such a state. SP = 0xF4, `ir` = 0 and RUNNING are the spec's decisions D4, D5, D6 (log
entries 4, 5, 6). -/
def Obligations.ResetGivesEveryRegisterItsValue : Prop :=
  (∀ s : State, ∃ t, transact .reset s = .next t ∧
    (∀ j : RegIdx, t.get j = if j = 7 then 0xF4 else 0x00) ∧ t.pc = 0x00 ∧ t.ir = 0x00 ∧
    t.run = .running ∧ t.out = [] ∧ t.diag = [] ∧ memKept s t) ∧
  transact .reset State.reset = .next State.reset

/-- The first tick after reset fetches its opcode from address 0 (R98). -/
def Obligations.FirstTickAfterResetFetchesAddressZero : Prop :=
  ∀ s : State, ∃ t u, transact .reset s = .next t ∧ step t = .next u ∧ u.ir = s.memRead 0x00

/-- After the boot sequence (reset, then the loader's pokes from address 0) of a program of at most 256 bytes memory
holds the program from address 0 and every cell past it is as before; of a longer one, which cannot be loaded, memory
is as before or holds its first 256 bytes, and which is the loader's (decision D27, log entry 22); either way the core
is RUNNING at address 0 with its reset registers (R99; RUNNING and SP are the spec's decisions D6 and D4, log entries 6
and 4). -/
def Obligations.BootPlacesTheProgram : Prop :=
  ∀ (p : List Byte) (s : State), ∃ t, runTransactions (boot p) s = .next t ∧
    (p.length ≤ 256 →
      (∀ k : Nat, k < p.length → p[k]? = some (t.memRead (BitVec.ofNat 8 k))) ∧
      (∀ a : Byte, p.length ≤ a.toNat → t.memRead a = s.memRead a)) ∧
    (256 < p.length →
      memKept s t ∨ ∀ k : Nat, k < 256 → p[k]? = some (t.memRead (BitVec.ofNat 8 k))) ∧
    t.run = .running ∧ t.pc = 0 ∧ t.x = State.reset.x ∧ t.out = [] ∧ t.diag = []

/-- A loader given a program of more than 256 bytes, by each of its two courses (decision D27, log entry 22): if it
refuses, nothing at all changes; if it truncates, cell `k` holds byte `k` of the program for every address up to 255,
which is the last (R99), and nothing but memory changes. -/
def Obligations.LoaderRefusesOrTruncatesAnOverlongProgram : Prop :=
  ∀ (p : List Byte) (s : State), 256 < p.length →
    runTransactions (loadUnder .refuse p) s = .next s ∧
    ∃ t, runTransactions (loadUnder .truncate p) s = .next t ∧
      (∀ k : Nat, k < 256 → p[k]? = some (t.memRead (BitVec.ofNat 8 k))) ∧
      regsKeptBut [] s t ∧ t.pc = s.pc ∧ coreKept s t

/-! ### Invariants -/

/-- The state after reset meets the invariant (the reset value of `ir` is the spec's decision D5, log entry 5; that
memory lists nothing is the model's choice, log entry 15). -/
def Obligations.ResetMeetsTheInvariant : Prop := State.reset.Inv

/-- Every tick keeps the invariant: memory stays canonical, `diag` is empty or holds one record about the
instruction at `pc` in HALTED, and a RUNNING core's `ir` is its reset value or a legal opcode other than HLT
(R17, R23, R83, R91). The canonical form is the model's (log entry 15), the form of the record the spec's
decision D12 (log entry 12), the reset value of `ir` its decision D5 (log entry 5). -/
def Obligations.TickKeepsTheInvariant : Prop :=
  ∀ s t : State, s.Inv → step s = .next t → t.Inv

/-- From any state that meets the invariant, any sequence of ticks, stops, pokes and resets answers a next
state that meets it (R9; the record in the invariant is the spec's decision D12, log entry 12, when a poke
may come its decision D18, log entry 18, the canonical form of memory the model's, log entry 15). -/
def Obligations.TransactionsKeepTheInvariant : Prop :=
  ∀ (trs : List Transaction) (s : State), s.Inv → ∃ t, runTransactions trs s = .next t ∧ t.Inv

/-- Whatever transactions follow a reset, `diag` holds at most one record since the last reset, and none while
the core is RUNNING (R23, R90; recording it is the spec's decision D12, log entry 12). -/
def Obligations.AtMostOneRecordBetweenResets : Prop :=
  ∀ (trs : List Transaction) (s : State), ∃ t, runTransactions (.reset :: trs) s = .next t ∧
    t.diag.length ≤ 1 ∧ (t.run = .running → t.diag = [])

/-- The host tells the three ends of a run apart by `diag` and `ir` (R91; that there is no halt-cause register
is the spec's decision D23, log entry 24): from a RUNNING state that meets the invariant, a tick ends the run by HLT exactly
when it fetched HLT, by a fault exactly when it left that fault's record, and `stop` is read as a stop. -/
def Obligations.HaltCauseIsReadOffDiagAndIr : Prop :=
  ∀ s : State, s.Inv → s.run = .running →
    (∃ t, step s = .next t ∧
      (t.haltCause = some .hltExecuted ↔ s.memRead s.pc = opcHLT) ∧
      (∀ c, t.haltCause = some (.fault c) ↔ t.diag = [⟨c, s.pc, s.memRead s.pc⟩]) ∧
      t.haltCause ≠ some .stopped) ∧
    ∃ u, transact .stop s = .next u ∧ u.haltCause = some .stopped
end

