-- ==== Sys2Proof/Laws/State.lean ====
section
/-! SUPPORT. One lemma per field per update of the state, true by rfl, so that no later proof unfolds a record
update; and what the reads of a register and of a byte of memory give after each update that keeps them. -/

namespace Sys2Proof.Machine

variable (s : State)

/-! ### After `x[i] <- v` -/

@[simp] theorem State.set_pc (i : RegIdx) (v : Int) : (s.set i v).pc = s.pc := rfl
@[simp] theorem State.set_ir (i : RegIdx) (v : Int) : (s.set i v).ir = s.ir := rfl
@[simp] theorem State.set_run (i : RegIdx) (v : Int) : (s.set i v).run = s.run := rfl
@[simp] theorem State.set_mem (i : RegIdx) (v : Int) : (s.set i v).mem = s.mem := rfl
@[simp] theorem State.set_out (i : RegIdx) (v : Int) : (s.set i v).out = s.out := rfl
@[simp] theorem State.set_diag (i : RegIdx) (v : Int) : (s.set i v).diag = s.diag := rfl
@[simp] theorem State.set_memRead (i : RegIdx) (v : Int) (c : Byte) : (s.set i v).memRead c = s.memRead c := rfl

/-! ### After `pc <- v` -/

@[simp] theorem State.setPC_x (v : Int) : (s.setPC v).x = s.x := rfl
@[simp] theorem State.setPC_pc (v : Int) : (s.setPC v).pc = maskByte v := rfl
@[simp] theorem State.setPC_ir (v : Int) : (s.setPC v).ir = s.ir := rfl
@[simp] theorem State.setPC_run (v : Int) : (s.setPC v).run = s.run := rfl
@[simp] theorem State.setPC_mem (v : Int) : (s.setPC v).mem = s.mem := rfl
@[simp] theorem State.setPC_out (v : Int) : (s.setPC v).out = s.out := rfl
@[simp] theorem State.setPC_diag (v : Int) : (s.setPC v).diag = s.diag := rfl
@[simp] theorem State.setPC_get (v : Int) (j : RegIdx) : (s.setPC v).get j = s.get j := rfl
@[simp] theorem State.setPC_getSP (v : Int) : (s.setPC v).getSP = s.getSP := rfl
@[simp] theorem State.setPC_memRead (v : Int) (c : Byte) : (s.setPC v).memRead c = s.memRead c := rfl

/-! ### After `MemWrite` -/

@[simp] theorem State.memWrite_x (a v : Byte) : (s.memWrite a v).x = s.x := rfl
@[simp] theorem State.memWrite_pc (a v : Byte) : (s.memWrite a v).pc = s.pc := rfl
@[simp] theorem State.memWrite_ir (a v : Byte) : (s.memWrite a v).ir = s.ir := rfl
@[simp] theorem State.memWrite_run (a v : Byte) : (s.memWrite a v).run = s.run := rfl
@[simp] theorem State.memWrite_mem (a v : Byte) : (s.memWrite a v).mem = s.mem.write a v := rfl
@[simp] theorem State.memWrite_out (a v : Byte) : (s.memWrite a v).out = s.out := rfl
@[simp] theorem State.memWrite_diag (a v : Byte) : (s.memWrite a v).diag = s.diag := rfl
@[simp] theorem State.memWrite_get (a v : Byte) (j : RegIdx) : (s.memWrite a v).get j = s.get j := rfl
@[simp] theorem State.memWrite_getSP (a v : Byte) : (s.memWrite a v).getSP = s.getSP := rfl

/-! ### After `Output` -/

@[simp] theorem State.output_x (v : Byte) : (s.output v).x = s.x := rfl
@[simp] theorem State.output_pc (v : Byte) : (s.output v).pc = s.pc := rfl
@[simp] theorem State.output_ir (v : Byte) : (s.output v).ir = s.ir := rfl
@[simp] theorem State.output_run (v : Byte) : (s.output v).run = s.run := rfl
@[simp] theorem State.output_mem (v : Byte) : (s.output v).mem = s.mem := rfl
@[simp] theorem State.output_out (v : Byte) : (s.output v).out = s.out ++ [v] := rfl
@[simp] theorem State.output_diag (v : Byte) : (s.output v).diag = s.diag := rfl
@[simp] theorem State.output_get (v : Byte) (j : RegIdx) : (s.output v).get j = s.get j := rfl
@[simp] theorem State.output_getSP (v : Byte) : (s.output v).getSP = s.getSP := rfl
@[simp] theorem State.output_memRead (v : Byte) (c : Byte) : (s.output v).memRead c = s.memRead c := rfl

/-! ### After `Stop()` -/

@[simp] theorem State.stop_x : (s.stop).x = s.x := rfl
@[simp] theorem State.stop_pc : (s.stop).pc = s.pc := rfl
@[simp] theorem State.stop_ir : (s.stop).ir = s.ir := rfl
@[simp] theorem State.stop_run : (s.stop).run = .halted := rfl
@[simp] theorem State.stop_mem : (s.stop).mem = s.mem := rfl
@[simp] theorem State.stop_out : (s.stop).out = s.out := rfl
@[simp] theorem State.stop_diag : (s.stop).diag = s.diag := rfl
@[simp] theorem State.stop_get (j : RegIdx) : (s.stop).get j = s.get j := rfl
@[simp] theorem State.stop_getSP : (s.stop).getSP = s.getSP := rfl
@[simp] theorem State.stop_memRead (c : Byte) : (s.stop).memRead c = s.memRead c := rfl

/-! ### After `raise` -/

@[simp] theorem State.raise_x (c : Cause) (a o : Byte) : (s.raise c a o).x = s.x := rfl
@[simp] theorem State.raise_pc (c : Cause) (a o : Byte) : (s.raise c a o).pc = s.pc := rfl
@[simp] theorem State.raise_ir (c : Cause) (a o : Byte) : (s.raise c a o).ir = s.ir := rfl
@[simp] theorem State.raise_run (c : Cause) (a o : Byte) : (s.raise c a o).run = .halted := rfl
@[simp] theorem State.raise_mem (c : Cause) (a o : Byte) : (s.raise c a o).mem = s.mem := rfl
@[simp] theorem State.raise_out (c : Cause) (a o : Byte) : (s.raise c a o).out = s.out := rfl
@[simp] theorem State.raise_diag (c : Cause) (a o : Byte) : (s.raise c a o).diag = s.diag ++ [⟨c, a, o⟩] := rfl
@[simp] theorem State.raise_get (c : Cause) (a o : Byte) (j : RegIdx) : (s.raise c a o).get j = s.get j := rfl
@[simp] theorem State.raise_getSP (c : Cause) (a o : Byte) : (s.raise c a o).getSP = s.getSP := rfl
@[simp] theorem State.raise_memRead (c : Cause) (a o b : Byte) : (s.raise c a o).memRead b = s.memRead b := rfl

/-! ### After the opcode fetch -/

@[simp] theorem State.fetchOpcode_x : (s.fetchOpcode).x = s.x := rfl
@[simp] theorem State.fetchOpcode_pc : (s.fetchOpcode).pc = s.pc := rfl
@[simp] theorem State.fetchOpcode_ir : (s.fetchOpcode).ir = s.memRead s.pc := rfl
@[simp] theorem State.fetchOpcode_run : (s.fetchOpcode).run = s.run := rfl
@[simp] theorem State.fetchOpcode_mem : (s.fetchOpcode).mem = s.mem := rfl
@[simp] theorem State.fetchOpcode_out : (s.fetchOpcode).out = s.out := rfl
@[simp] theorem State.fetchOpcode_diag : (s.fetchOpcode).diag = s.diag := rfl
@[simp] theorem State.fetchOpcode_get (j : RegIdx) : (s.fetchOpcode).get j = s.get j := rfl
@[simp] theorem State.fetchOpcode_getSP : (s.fetchOpcode).getSP = s.getSP := rfl
@[simp] theorem State.fetchOpcode_memRead (c : Byte) : (s.fetchOpcode).memRead c = s.memRead c := rfl

/-! ### After the pre-decrement -/

@[simp] theorem State.decSP_pc : (s.decSP).pc = s.pc := rfl
@[simp] theorem State.decSP_ir : (s.decSP).ir = s.ir := rfl
@[simp] theorem State.decSP_run : (s.decSP).run = s.run := rfl
@[simp] theorem State.decSP_mem : (s.decSP).mem = s.mem := rfl
@[simp] theorem State.decSP_out : (s.decSP).out = s.out := rfl
@[simp] theorem State.decSP_diag : (s.decSP).diag = s.diag := rfl
@[simp] theorem State.decSP_memRead (c : Byte) : (s.decSP).memRead c = s.memRead c := rfl

/-! ### After the post-increment -/

@[simp] theorem State.incSP_pc : (s.incSP).pc = s.pc := rfl
@[simp] theorem State.incSP_ir : (s.incSP).ir = s.ir := rfl
@[simp] theorem State.incSP_run : (s.incSP).run = s.run := rfl
@[simp] theorem State.incSP_mem : (s.incSP).mem = s.mem := rfl
@[simp] theorem State.incSP_out : (s.incSP).out = s.out := rfl
@[simp] theorem State.incSP_diag : (s.incSP).diag = s.diag := rfl
@[simp] theorem State.incSP_memRead (c : Byte) : (s.incSP).memRead c = s.memRead c := rfl

/-! ### After the pc advance -/

@[simp] theorem State.advancePC_x (n : Nat) : (s.advancePC n).x = s.x := rfl
@[simp] theorem State.advancePC_ir (n : Nat) : (s.advancePC n).ir = s.ir := rfl
@[simp] theorem State.advancePC_run (n : Nat) : (s.advancePC n).run = s.run := rfl
@[simp] theorem State.advancePC_mem (n : Nat) : (s.advancePC n).mem = s.mem := rfl
@[simp] theorem State.advancePC_out (n : Nat) : (s.advancePC n).out = s.out := rfl
@[simp] theorem State.advancePC_diag (n : Nat) : (s.advancePC n).diag = s.diag := rfl
@[simp] theorem State.advancePC_get (n : Nat) (j : RegIdx) : (s.advancePC n).get j = s.get j := rfl
@[simp] theorem State.advancePC_getSP (n : Nat) : (s.advancePC n).getSP = s.getSP := rfl
@[simp] theorem State.advancePC_memRead (n : Nat) (c : Byte) : (s.advancePC n).memRead c = s.memRead c := rfl

/-! ### After the ALU -/

@[simp] theorem State.aluApply_pc (op : AluOp) (a b : RegIdx) : (s.aluApply op a b).pc = s.pc := rfl
@[simp] theorem State.aluApply_ir (op : AluOp) (a b : RegIdx) : (s.aluApply op a b).ir = s.ir := rfl
@[simp] theorem State.aluApply_run (op : AluOp) (a b : RegIdx) : (s.aluApply op a b).run = s.run := rfl
@[simp] theorem State.aluApply_mem (op : AluOp) (a b : RegIdx) : (s.aluApply op a b).mem = s.mem := rfl
@[simp] theorem State.aluApply_out (op : AluOp) (a b : RegIdx) : (s.aluApply op a b).out = s.out := rfl
@[simp] theorem State.aluApply_diag (op : AluOp) (a b : RegIdx) : (s.aluApply op a b).diag = s.diag := rfl
@[simp] theorem State.aluApply_memRead (op : AluOp) (a b : RegIdx) (c : Byte) : (s.aluApply op a b).memRead c = s.memRead c := rfl

/-! ### After the push -/

@[simp] theorem State.pushByte_pc (v : State → Byte) : (s.pushByte v).pc = s.pc := rfl
@[simp] theorem State.pushByte_ir (v : State → Byte) : (s.pushByte v).ir = s.ir := rfl
@[simp] theorem State.pushByte_run (v : State → Byte) : (s.pushByte v).run = s.run := rfl
@[simp] theorem State.pushByte_out (v : State → Byte) : (s.pushByte v).out = s.out := rfl
@[simp] theorem State.pushByte_diag (v : State → Byte) : (s.pushByte v).diag = s.diag := rfl

/-! ### After the register-operand fault -/

@[simp] theorem State.badRegister_x : (s.badRegister).x = s.x := rfl
@[simp] theorem State.badRegister_pc : (s.badRegister).pc = s.pc := rfl
@[simp] theorem State.badRegister_ir : (s.badRegister).ir = s.ir := rfl
@[simp] theorem State.badRegister_run : (s.badRegister).run = .halted := rfl
@[simp] theorem State.badRegister_mem : (s.badRegister).mem = s.mem := rfl
@[simp] theorem State.badRegister_out : (s.badRegister).out = s.out := rfl
@[simp] theorem State.badRegister_diag : (s.badRegister).diag = s.diag ++ [⟨.invalidRegisterIndex, s.pc, s.ir⟩] := rfl
@[simp] theorem State.badRegister_get (j : RegIdx) : (s.badRegister).get j = s.get j := rfl
@[simp] theorem State.badRegister_getSP : (s.badRegister).getSP = s.getSP := rfl
@[simp] theorem State.badRegister_memRead (c : Byte) : (s.badRegister).memRead c = s.memRead c := rfl

/-! ### Another name of the same value -/

@[simp] theorem State.getPC_eq : s.getPC = s.pc := rfl
@[simp] theorem State.poke_eq (a v : Byte) : s.poke a v = s.memWrite a v := rfl

/-! ### After a reset of the core (R97) -/

@[simp] theorem State.resetCore_x : s.resetCore.x = resetRegs := rfl
@[simp] theorem State.resetCore_pc : s.resetCore.pc = Config.pcReset := rfl
@[simp] theorem State.resetCore_ir : s.resetCore.ir = Config.irReset := rfl
@[simp] theorem State.resetCore_run : s.resetCore.run = .running := rfl
@[simp] theorem State.resetCore_mem : s.resetCore.mem = s.mem := rfl
@[simp] theorem State.resetCore_out : s.resetCore.out = [] := rfl
@[simp] theorem State.resetCore_diag : s.resetCore.diag = [] := rfl
@[simp] theorem State.resetCore_memRead (c : Byte) : s.resetCore.memRead c = s.memRead c := rfl

end Sys2Proof.Machine
end

