-- ==== Sys2Proof/Laws/Memory.lean ====
section
/-! SUPPORT. The memory contract (spec/20_memory.md R27, R28): a read after a write to the same cell gives the
value written, a write leaves every other cell alone, and every write keeps the canonical form. -/

namespace Sys2Proof.Machine

theorem Memory.lookup_cons (d : Host.Cell) (m : Memory) (k : Nat) :
    List.lookup k (d :: m) = if k = d.1 then some d.2 else List.lookup k m := by
  rw [show d = (d.1, d.2) from rfl, List.lookup_cons]
  by_cases h : k = d.1
  · simp [h]
  · simp [h, beq_false_of_ne h]

theorem Memory.lookup_insert (c : Host.Cell) (m : Memory) (k : Nat) (h : ∀ d ∈ m, d.1 ≠ c.1) :
    (Memory.insert c m).lookup k = if k = c.1 then some c.2 else m.lookup k := by
  induction m with
  | nil => simp [Memory.insert, Memory.lookup_cons]
  | cons d m ih =>
    have hd : d.1 ≠ c.1 := h d (by simp)
    have hm := ih fun e he => h e (by simp [he])
    unfold Memory.insert
    split
    · simp [Memory.lookup_cons]
    · rw [Memory.lookup_cons, hm, Memory.lookup_cons]
      by_cases hk : k = d.1
      · simp [hk, hd]
      · simp [hk]

theorem Memory.lookup_filter (m : Memory) (a k : Nat) :
    (m.filter (fun c => c.1 != a)).lookup k = if k = a then none else m.lookup k := by
  induction m with
  | nil => simp
  | cons d m ih =>
    by_cases hd : d.1 = a
    · rw [List.filter_cons_of_neg (by simp [hd]), ih, Memory.lookup_cons, hd]
      by_cases hk : k = a <;> simp [hk]
    · rw [List.filter_cons_of_pos (by simp [hd]), Memory.lookup_cons, ih, Memory.lookup_cons]
      by_cases hk : k = d.1
      · simp [hk, hd]
      · simp [hk]

/-- The whole contract of `MemRead` after `MemWrite` (R27, R28). -/
theorem Memory.read_write (m : Memory) (a v b : Byte) :
    (m.write a v).read b = if b = a then v else m.read b := by
  have hk : b.toNat = a.toNat ↔ b = a := BitVec.toNat_inj
  unfold Memory.write Memory.read
  by_cases hb : b = a
  · subst hb
    split
    · next hv => simp [Memory.lookup_filter, hv]
    · rw [Memory.lookup_insert _ _ _ (by simp [List.mem_filter])]; simp
  · split
    · simp [Memory.lookup_filter, hk, hb]
    · rw [Memory.lookup_insert _ _ _ (by simp [List.mem_filter])]
      simp [Memory.lookup_filter, hk, hb]

@[simp] theorem Memory.read_write_same (m : Memory) (a v : Byte) : (m.write a v).read a = v := by
  simp [Memory.read_write]

@[simp] theorem State.memRead_memWrite_same (s : State) (a v : Byte) : (s.memWrite a v).memRead a = v :=
  Memory.read_write_same ..

theorem State.memRead_memWrite (s : State) (a v b : Byte) :
    (s.memWrite a v).memRead b = if b = a then v else s.memRead b :=
  Memory.read_write ..

theorem Memory.mem_insert {c d : Host.Cell} {m : Memory} : d ∈ Memory.insert c m ↔ d = c ∨ d ∈ m := by
  induction m with
  | nil => simp [Memory.insert]
  | cons e m ih =>
    unfold Memory.insert
    split
    · simp
    · simp [ih]; tauto

theorem Memory.pairwise_insert {c : Host.Cell} {m : Memory} (hs : m.Pairwise (fun c d => c.1 < d.1))
    (hc : ∀ d ∈ m, d.1 ≠ c.1) : (Memory.insert c m).Pairwise (fun c d => c.1 < d.1) := by
  induction m with
  | nil => simp [Memory.insert]
  | cons e m ih =>
    rw [List.pairwise_cons] at hs
    have he : e.1 ≠ c.1 := hc e (by simp)
    unfold Memory.insert
    split
    · next hlt =>
      refine List.pairwise_cons.2 ⟨fun d hd => ?_, List.pairwise_cons.2 hs⟩
      rcases List.mem_cons.1 hd with rfl | hd
      · exact hlt
      · exact Nat.lt_trans hlt (hs.1 d hd)
    · next hge =>
      refine List.pairwise_cons.2 ⟨fun d hd => ?_, ih hs.2 fun d hd => hc d (by simp [hd])⟩
      rcases Memory.mem_insert.1 hd with rfl | hd
      · omega
      · exact hs.1 d hd

/-- A write keeps the canonical form. -/
theorem Memory.wf_write {m : Memory} (h : m.wf) (a v : Byte) : (m.write a v).wf := by
  have hs := h.1.filter (fun c => c.1 != a.toNat)
  have hm : ∀ c ∈ m.filter (fun c => c.1 != a.toNat), c.1 < Config.memSize ∧ c.2 ≠ memInit c.1 :=
    fun c hc => h.2 c (List.mem_filter.1 hc).1
  unfold Memory.write
  split
  · exact ⟨hs, hm⟩
  · next hv =>
    refine ⟨Memory.pairwise_insert hs (by simp [List.mem_filter]), fun c hc => ?_⟩
    rcases Memory.mem_insert.1 hc with rfl | hc
    · exact ⟨a.isLt, hv⟩
    · exact hm c hc

theorem State.memWrite_wf {s : State} (h : s.mem.wf) (a v : Byte) : (s.memWrite a v).mem.wf :=
  Memory.wf_write h a v

theorem State.pushByte_wf {s : State} (h : s.mem.wf) (v : State → Byte) : (s.pushByte v).mem.wf :=
  Memory.wf_write h ..

theorem State.poke_wf {s : State} (h : s.mem.wf) (a v : Byte) : (s.poke a v).mem.wf := Memory.wf_write h a v

theorem State.reset_wf : State.reset.mem.wf := by decide

end Sys2Proof.Machine
end

