-- ==== Sys2Proof/Laws/Ops.lean ====
section
/-! SUPPORT. What each shared operation does, once: the masking of a written value (spec/10_state.md R12), the
register file (R14), the moves of the stack pointer and of `pc` (R15, R76), the push (R76), and the
register-operand check (spec/40_execution_cycle.md R61). -/

namespace Sys2Proof.Machine

/-! ### Masking (R12) -/

theorem maskByte_toNat (v : Int) : (maskByte v).toNat = (v % 256).toNat := by
  simp [maskByte, BitVec.toNat_ofInt]

@[simp ↓] theorem maskByte_byte (b : Byte) : maskByte b.toNat = b := by
  apply BitVec.eq_of_toNat_eq; rw [maskByte_toNat]; have := b.isLt; omega

@[simp] theorem maskByte_byte_add (b : Byte) (n : Nat) : maskByte ((b.toNat : Int) + n) = b + BitVec.ofNat 8 n := by
  apply BitVec.eq_of_toNat_eq; rw [maskByte_toNat, BitVec.toNat_add, BitVec.toNat_ofNat]; have := b.isLt; omega

@[simp] theorem maskByte_byte_succ (b : Byte) : maskByte ((b.toNat : Int) + 1) = b + 1 := maskByte_byte_add b 1

@[simp] theorem maskByte_byte_pred (b : Byte) : maskByte ((b.toNat : Int) - 1) = b - 1 := by
  apply BitVec.eq_of_toNat_eq; rw [maskByte_toNat, BitVec.toNat_sub]; have := b.isLt
  simp; omega

@[simp] theorem maskByte_immediate (imm : Byte) : maskByte (immediate imm) = imm := maskByte_byte imm

/-! ### The register file (R12, R14) -/

variable (s : State)

/-- The whole contract of `get` after `set`. -/
theorem State.get_set (i j : RegIdx) (v : Int) : (s.set i v).get j = if j = i then maskByte v else s.get j := by
  by_cases h : j = i
  · subst h; simp [State.get, State.set]
  · have h' : i.val ≠ j.val := fun e => h (Fin.ext e.symm)
    simp [State.get, State.set, h, Vector.getElem_set_ne _ _ h']

@[simp] theorem State.get_set_same (i : RegIdx) (v : Int) : (s.set i v).get i = maskByte v := by
  simp [State.get_set]

theorem State.get_set_of_ne {i j : RegIdx} (h : j ≠ i) (v : Int) : (s.set i v).get j = s.get j := by
  simp [State.get_set, h]

theorem State.getSP_eq : s.getSP = s.get Config.spIndex := rfl

/-- Two states with the same registers by index have the same register file. -/
theorem State.x_ext {s t : State} (h : ∀ j, t.get j = s.get j) : t.x = s.x :=
  Vector.ext fun j hj => h ⟨j, hj⟩

/-! ### The stack pointer and `pc` (R15, R76) -/

theorem State.get_decSP (j : RegIdx) : s.decSP.get j = if j = Config.spIndex then s.getSP - 1 else s.get j := by
  simp [State.decSP, State.get_set]

theorem State.get_incSP (j : RegIdx) : s.incSP.get j = if j = Config.spIndex then s.getSP + 1 else s.get j := by
  simp [State.incSP, State.get_set]

@[simp] theorem State.getSP_decSP : s.decSP.getSP = s.getSP - 1 := by simp [State.getSP_eq, State.get_decSP]

@[simp] theorem State.getSP_incSP : s.incSP.getSP = s.getSP + 1 := by simp [State.getSP_eq, State.get_incSP]

@[simp] theorem State.advancePC_pc (n : Nat) : (s.advancePC n).pc = s.pc + BitVec.ofNat 8 n :=
  maskByte_byte_add ..

/-- The push of R76: what every register and every byte of memory holds after it. -/
theorem State.get_pushByte (v : State → Byte) (j : RegIdx) :
    (s.pushByte v).get j = if j = Config.spIndex then s.getSP - 1 else s.get j := by
  simp [State.pushByte, State.get_decSP]

@[simp] theorem State.getSP_pushByte (v : State → Byte) : (s.pushByte v).getSP = s.getSP - 1 := by
  simp [State.getSP_eq, State.get_pushByte]

theorem State.memRead_pushByte (v : State → Byte) (b : Byte) :
    (s.pushByte v).memRead b = if b = s.getSP - 1 then v s.decSP else s.memRead b := by
  simp [State.pushByte, State.memRead_memWrite]

/-- The fault entry written out (R87). -/
theorem State.raise_eq (c : Cause) (a o : Byte) : s.raise c a o = faulted s c a o := rfl

theorem State.badRegister_eq : s.badRegister = faulted s .invalidRegisterIndex s.pc s.ir := rfl

/-! ### The register-operand check (R46, R61) -/

theorem regOperand_eq_some {b : Byte} {r : RegIdx} : regOperand b = some r ↔ b.toNat = r.val := by
  unfold regOperand regIndexPolicy regOperandUnder
  have := r.isLt
  by_cases h : b.toNat ≤ 7 <;> simp [h, Fin.ext_iff]; omega

theorem regOperand_eq_none {b : Byte} : regOperand b = none ↔ 7 < b.toNat := by
  unfold regOperand regIndexPolicy regOperandUnder
  by_cases h : b.toNat ≤ 7 <;> simp [h]; omega

theorem namesRegister_iff {b : Byte} : namesRegister b = true ↔ ∃ r, regOperand b = some r := by
  rw [← Option.isSome_iff_exists, ← Option.ne_none_iff_isSome, Ne, regOperand_eq_none]
  simp [namesRegister]

theorem withReg_of_reg {ra : Byte} {a : RegIdx} (h : ra.toNat = a.val) (handler : RegIdx → State) :
    withReg ra s handler = .next (handler a) := by
  simp [withReg, regOperand_eq_some.2 h]

theorem withReg_of_bad {ra : Byte} (h : 7 < ra.toNat) (handler : RegIdx → State) :
    withReg ra s handler = .next s.badRegister := by
  simp [withReg, regOperand_eq_none.2 h]

theorem withRegs_of_regs {ra rb : Byte} {a b : RegIdx} (ha : ra.toNat = a.val) (hb : rb.toNat = b.val)
    (handler : RegIdx → RegIdx → State) : withRegs ra rb s handler = .next (handler a b) := by
  simp [withRegs, regOperand_eq_some.2 ha, regOperand_eq_some.2 hb]

theorem withRegs_of_bad {ra rb : Byte} (h : 7 < ra.toNat ∨ 7 < rb.toNat) (handler : RegIdx → RegIdx → State) :
    withRegs ra rb s handler = .next s.badRegister := by
  unfold withRegs
  split
  · next ha hb => rw [regOperand_eq_some] at ha hb; omega
  · rfl

/-- Everything the check of one operand can do. -/
theorem withReg_cases (ra : Byte) (handler : RegIdx → State) :
    (∃ a : RegIdx, ra.toNat = a.val ∧ withReg ra s handler = .next (handler a)) ∨
      (7 < ra.toNat ∧ withReg ra s handler = .next s.badRegister) := by
  by_cases h : 7 < ra.toNat
  · exact .inr ⟨h, withReg_of_bad s h handler⟩
  · exact .inl ⟨⟨ra.toNat, by omega⟩, rfl, withReg_of_reg s rfl handler⟩

/-- Everything the check of two operands can do. -/
theorem withRegs_cases (ra rb : Byte) (handler : RegIdx → RegIdx → State) :
    (∃ a b : RegIdx, ra.toNat = a.val ∧ rb.toNat = b.val ∧ withRegs ra rb s handler = .next (handler a b)) ∨
      ((7 < ra.toNat ∨ 7 < rb.toNat) ∧ withRegs ra rb s handler = .next s.badRegister) := by
  by_cases h : 7 < ra.toNat ∨ 7 < rb.toNat
  · exact .inr ⟨h, withRegs_of_bad s h handler⟩
  · rw [not_or] at h
    exact .inl ⟨⟨ra.toNat, by omega⟩, ⟨rb.toNat, by omega⟩, rfl, rfl, withRegs_of_regs s rfl rfl handler⟩

end Sys2Proof.Machine
end

