-- ==== Sys2Proof/Laws/Decode.lean ====
section
/-! SUPPORT. The decoder's table read both ways (spec/40_execution_cycle.md R59) and the fetch of an
instruction (R57, R58). -/

namespace Sys2Proof

@[simp] theorem decodeOpcode_opcode (h : Handler) : decodeOpcode h.opcode = some h := by
  cases h <;> decide

theorem opcode_of_decodeOpcode {b : Byte} {h : Handler} (hd : decodeOpcode b = some h) : b = h.opcode := by
  unfold decodeOpcode at hd
  repeat' split at hd
  all_goals first | (cases hd; assumption) | cases hd

theorem opcode_injective {g h : Handler} (e : g.opcode = h.opcode) : g = h := by
  have := congrArg decodeOpcode e
  simpa using this

/-- The decoder is the handler's own reader of operand bytes after the opcode byte (R51). -/
@[simp] theorem decode_cons_opcode (h : Handler) (rest : List Byte) :
    decode (h.opcode :: rest) = h.decodeOperands rest := by simp [decode]

theorem decode_of_unmapped {b : Byte} (h : decodeOpcode b = none) (rest : List Byte) :
    decode (b :: rest) = .invalidOpcode b := by simp [decode, h]

/-- Everything decoding can be: no byte, an unmapped opcode, or a handler's reading of its operands. -/
theorem decode_cases (bs : List Byte) :
    bs = [] ∨ (∃ b rest, bs = b :: rest ∧ decodeOpcode b = none ∧ decode bs = .invalidOpcode b) ∨
      ∃ h rest, bs = Handler.opcode h :: rest ∧ decode bs = h.decodeOperands rest := by
  cases bs with
  | nil => exact .inl rfl
  | cons b rest =>
    cases hd : decodeOpcode b with
    | none => exact .inr (.inl ⟨b, rest, rfl, hd, decode_of_unmapped hd rest⟩)
    | some h =>
      obtain rfl := opcode_of_decodeOpcode hd
      exact .inr (.inr ⟨h, rest, rfl, decode_cons_opcode h rest⟩)

namespace Machine

/-- The fetched instruction, by handler: its operand bytes stand at `pc +8 1` and `pc +8 2` (R58). -/
theorem State.fetchInstr_of_handler {s : State} {h : Handler} (ho : s.memRead s.pc = h.opcode) :
    s.fetchInstr = (h.decodeOperands [s.memRead (s.pc + 1), s.memRead (s.pc + 2)]).instr? := by
  have hl : fetchLength h.opcode = h.format.length := by simp [fetchLength]
  unfold State.fetchInstr State.fetchBytes
  rw [State.getPC_eq, ho, hl]
  cases h <;>
    simp [Handler.format, Format.length, List.range_succ, ho, Handler.decodeOperands, operand1, operand2,
      Decoded.instr?, decode]

theorem State.fetchInstr_of_unmapped {s : State} (h : decodeOpcode (s.memRead s.pc) = none) :
    s.fetchInstr = none := by
  unfold State.fetchInstr State.fetchBytes
  simp [fetchLength, h, List.range_succ, decode, Decoded.instr?]

/-- A fetched opcode byte with a handler always gives an instruction of that handler: no operand byte is
ever lacking (R35). -/
theorem State.fetchInstr_handler {s : State} {h : Handler} (ho : s.memRead s.pc = h.opcode) :
    ∃ i, s.fetchInstr = some i ∧ i.handler = h := by
  rw [State.fetchInstr_of_handler ho]
  cases h <;> exact ⟨_, rfl, rfl⟩

end Machine

end Sys2Proof
end

