-- ==== Sys2Proof/Laws/Meanings.lean ====
section
/-! SUPPORT. Each meaning on a checked operand and on a bad one (spec/40_execution_cycle.md R61, R62), so that
no later proof unfolds a meaning: what `exec` answers, as the shared operations composed. -/

namespace Sys2Proof.Machine

variable {s : State} {ra rb imm : Byte} {a b : RegIdx}

theorem exec_hlt : exec .hlt s = .next s.stop := rfl

theorem exec_ldi (ha : ra.toNat = a.val) :
    exec (.ldi ra imm) s = .next ((s.set a (immediate imm)).advancePC 3) := withReg_of_reg s ha _

theorem exec_mul (ha : ra.toNat = a.val) (hb : rb.toNat = b.val) :
    exec (.mul ra rb) s = .next ((s.aluApply .mul a b).advancePC 3) := withRegs_of_regs s ha hb _

theorem exec_add (ha : ra.toNat = a.val) (hb : rb.toNat = b.val) :
    exec (.add ra rb) s = .next ((s.aluApply .add a b).advancePC 3) := withRegs_of_regs s ha hb _

theorem exec_prn (ha : ra.toNat = a.val) :
    exec (.prn ra) s = .next ((s.output (s.get a)).advancePC 2) := withReg_of_reg s ha _

theorem exec_push (ha : ra.toNat = a.val) :
    exec (.push ra) s = .next ((s.pushByte fun t => t.get a).advancePC 2) := withReg_of_reg s ha _

theorem exec_pop (ha : ra.toNat = a.val) :
    exec (.pop ra) s = .next ((s.set a (s.memRead s.getSP).toNat).incSP.advancePC 2) := withReg_of_reg s ha _

theorem exec_call (ha : ra.toNat = a.val) :
    exec (.call ra) s = .next ((s.pushByte fun u => u.getPC + 2).setPC
      ((s.pushByte fun u => u.getPC + 2).get a).toNat) := withReg_of_reg s ha _

theorem exec_ret : exec .ret s = .next (s.setPC (s.memRead s.getSP).toNat).incSP := rfl

theorem exec_jmp (ha : ra.toNat = a.val) :
    exec (.jmp ra) s = .next (s.setPC (s.get a).toNat) := withReg_of_reg s ha _

end Sys2Proof.Machine
end

