-- ==== Sys2Proof/Laws/PerInstr.lean ====
section
/-! SUPPORT. A statement about every instruction as syntax, one lemma a constructor: the encoding has the
length of the instruction's format and begins with its handler's opcode byte (spec/30_encoding.md R41, R48). -/

namespace Sys2Proof.Laws.EncodeShape

/-- The encoding of `i` has the length R41 gives and the opcode byte R48 gives. -/
def Statement (i : Instr) : Prop :=
  (encode i).length = i.length ∧ (encode i).head? = some i.handler.opcode

theorem hlt : Statement .hlt := ⟨rfl, rfl⟩
theorem ldi (ra imm : Byte) : Statement (.ldi ra imm) := ⟨rfl, rfl⟩
theorem mul (ra rb : Byte) : Statement (.mul ra rb) := ⟨rfl, rfl⟩
theorem add (ra rb : Byte) : Statement (.add ra rb) := ⟨rfl, rfl⟩
theorem prn (ra : Byte) : Statement (.prn ra) := ⟨rfl, rfl⟩
theorem push (ra : Byte) : Statement (.push ra) := ⟨rfl, rfl⟩
theorem pop (ra : Byte) : Statement (.pop ra) := ⟨rfl, rfl⟩
theorem call (ra : Byte) : Statement (.call ra) := ⟨rfl, rfl⟩
theorem ret : Statement .ret := ⟨rfl, rfl⟩
theorem jmp (ra : Byte) : Statement (.jmp ra) := ⟨rfl, rfl⟩

end Sys2Proof.Laws.EncodeShape
end

