-- ==== Sys2Proof/Laws/Step.lean ====
section
/-! SUPPORT. Everything a tick can do (spec/40_execution_cycle.md R55, R60, R62). -/

namespace Sys2Proof.Machine

variable {s : State}

theorem step_of_halted (h : s.run = .halted) : step s = .next s := by simp [step, h]

theorem step_of_unmapped (hr : s.run = .running) (hd : decodeOpcode (s.memRead s.pc) = none) :
    step s = .next (s.fetchOpcode.raise .invalidOpcode s.pc s.fetchOpcode.ir) := by
  simp [step, hr, State.fetchInstr_of_unmapped hd]

theorem step_of_fetched {i : Instr} (hr : s.run = .running) (hi : s.fetchInstr = some i) :
    step s = exec i s.fetchOpcode := by simp [step, hr, hi]

/-- A tick is ignored, or takes InvalidOpcode, or runs the instruction at `pc`. -/
theorem step_cases (s : State) :
    (s.run = .halted ∧ step s = .next s) ∨
      (s.run = .running ∧ decodeOpcode (s.memRead s.pc) = none ∧
        step s = .next (s.fetchOpcode.raise .invalidOpcode s.pc s.fetchOpcode.ir)) ∨
      ∃ i, s.run = .running ∧ s.memRead s.pc = i.handler.opcode ∧ s.fetchInstr = some i ∧
        step s = exec i s.fetchOpcode := by
  cases hr : s.run with
  | halted => exact .inl ⟨rfl, step_of_halted hr⟩
  | running =>
    refine .inr ?_
    cases hd : decodeOpcode (s.memRead s.pc) with
    | none => exact .inl ⟨rfl, rfl, step_of_unmapped hr hd⟩
    | some h =>
      have ho := opcode_of_decodeOpcode hd
      obtain ⟨i, hi, rfl⟩ := State.fetchInstr_handler ho
      exact .inr ⟨i, rfl, ho, hi, step_of_fetched hr hi⟩

end Sys2Proof.Machine
end

