-- ==== Sys2Proof/Laws/Transactions.lean ====
section
/-! SUPPORT. Sequences of transactions (spec/00_scope.md R9) and the loader's pokes (spec/70_reset_and_hazards.md
R99). -/

namespace Sys2Proof.Machine

theorem runTransactions_cons {tr : Transaction} {s t : State} (h : transact tr s = .next t)
    (trs : List Transaction) : runTransactions (tr :: trs) s = runTransactions trs t := by
  rw [runTransactions, h]

/-- A sequence is run part by part. -/
theorem runTransactions_append {trs : List Transaction} {s t : State} (h : runTransactions trs s = .next t)
    (more : List Transaction) : runTransactions (trs ++ more) s = runTransactions more t := by
  induction trs generalizing s with
  | nil => cases h; rfl
  | cons tr trs ih =>
    rw [runTransactions] at h
    rw [List.cons_append, runTransactions]
    cases ht : transact tr s with
    | next u => rw [ht] at h; exact ih h
    | fault f => cases f
    | refused r => rw [ht] at h; cases h

/-- Everything a loader's transaction can be: a poke at one of the addresses from `n` to 255, so that no poke
wraps to an address already loaded (R99). -/
theorem mem_loadFrom {n : Nat} {bs : List Byte} {tr : Transaction} (h : tr ∈ loadFrom n bs) :
    ∃ k v, n ≤ k ∧ k < Config.memSize ∧ tr = .poke (BitVec.ofNat 8 k) v := by
  induction bs generalizing n with
  | nil => cases h
  | cons b bs ih =>
    unfold loadFrom at h
    split at h
    · next hn =>
      rcases List.mem_cons.1 h with rfl | h
      · exact ⟨n, b, Nat.le_refl n, hn, rfl⟩
      · obtain ⟨k, v, hk, hs, e⟩ := ih h
        exact ⟨k, v, by omega, hs, e⟩
    · cases h

theorem loadUnder_of_fits {p : List Byte} (h : p.length ≤ Config.memSize) (policy : Config.OverlongPolicy) :
    loadUnder policy p = loadFrom 0 p := if_pos h

theorem loadUnder_refuse {p : List Byte} (h : Config.memSize < p.length) : loadUnder .refuse p = [] :=
  if_neg (Nat.not_le.2 h)

theorem loadUnder_truncate (p : List Byte) : loadUnder .truncate p = loadFrom 0 p := by simp [loadUnder]

end Sys2Proof.Machine
end

