-- ==== Sys2Proof/Tests/Slice0.lean ====
section
/-! SUPPORT. The model's own tests. Expected results come from spec/30_encoding.md and from the vectors of
spec/95_test_vectors.md (named in each docstring); and for each statement that has hypotheses, a witness that
meets them together. -/

namespace Sys2Proof.Tests

open Sys2Proof.Machine

/-- The reset state with `pc` and memory cells of one's own. -/
def st (pc : Byte) (cells : Memory) : State := { State.reset with pc := pc, mem := cells }

/-- What a tick leaves, seen through `f`; none if it does not answer a next state. -/
def after {α : Type} (s : State) (f : State → α) : Option α :=
  match step s with
  | .next t => some (f t)
  | _ => none

/-! ### WellFormed refuses an ill-formed term, for each check (R46) -/

theorem test_wellFormed_ldi : (Instr.ldi 8 0).wellFormed = false := by decide
theorem test_wellFormed_mul_ra : (Instr.mul 8 0).wellFormed = false := by decide
theorem test_wellFormed_mul_rb : (Instr.mul 0 8).wellFormed = false := by decide
theorem test_wellFormed_add_ra : (Instr.add 0xFF 0).wellFormed = false := by decide
theorem test_wellFormed_add_rb : (Instr.add 0 9).wellFormed = false := by decide
theorem test_wellFormed_prn : (Instr.prn 8).wellFormed = false := by decide
theorem test_wellFormed_push : (Instr.push 0x10).wellFormed = false := by decide
theorem test_wellFormed_pop : (Instr.pop 9).wellFormed = false := by decide
theorem test_wellFormed_call : (Instr.call 8).wellFormed = false := by decide
theorem test_wellFormed_jmp : (Instr.jmp 0x0F).wellFormed = false := by decide
theorem test_wellFormed_accepts : (Instr.ldi 7 0xFF).wellFormed = true := by decide

/-! ### Words written out from the encoding tables (R42 to R45, R48) -/

theorem test_decode_hlt : decode [0b00000001#8] = .ok .hlt [] := by decide
theorem test_decode_ldi : decode [0b10011001#8, 0b00000010#8, 0b10000001#8] = .ok (.ldi 2 129) [] := by decide
theorem test_decode_mul : decode [0b10101010#8, 0b00000011#8, 0b00000110#8] = .ok (.mul 3 6) [] := by decide
theorem test_decode_add : decode [0b10101000#8, 0b00000101#8, 0b00000001#8] = .ok (.add 5 1) [] := by decide
theorem test_decode_prn : decode [0b01000011#8, 0b00000111#8] = .ok (.prn 7) [] := by decide
theorem test_decode_push : decode [0b01001101#8, 0b00000100#8] = .ok (.push 4) [] := by decide
theorem test_decode_pop : decode [0b01001100#8, 0b00000010#8] = .ok (.pop 2) [] := by decide
theorem test_decode_call : decode [0b01001000#8, 0b00000001#8] = .ok (.call 1) [] := by decide
theorem test_decode_ret : decode [0b00001001#8, 0b11111111#8] = .ok .ret [0xFF] := by decide
theorem test_decode_jmp : decode [0b01010000#8, 0b00000011#8] = .ok (.jmp 3) [] := by decide

/-- SUB, DIV, INC, DEC, CMP of a wider ISA, 0x00 and 0xFF are unmapped (R49, R50). -/
theorem test_decode_unmapped :
    ([0xA9, 0xAB, 0x78, 0x79, 0xA0, 0x00, 0xFF] : List Byte).all (fun b => decide (decodeOpcode b = none)) := by
  decide
theorem test_decode_truncated : decode [0x99, 0x00] = .truncated := by decide

/-- No two rows of the opcode map share a byte, and none is 0xFF (R5). -/
theorem test_opcodes_distinct :
    ([opcHLT, opcLDI, opcMUL, opcADD, opcPRN, opcPUSH, opcPOP, opcCALL, opcRET, opcJMP, 0xFF] : List Byte).Pairwise
      (fun a b => a ≠ b) := by decide

theorem test_tableWord_one_byte : decodeTableWord 8 0x99 = some (.ldi 0 0) := by decide
theorem test_tableWord_three_bytes : decodeTableWord 24 0x0302AA = some (.mul 2 3) := by decide
theorem test_tableWord_unmapped : decodeTableWord 8 0xFF = none := by decide

/-- A row's word, placed where the next tick fetches, runs as the first instruction after reset. -/
theorem test_withFetchWord_runs :
    after (State.reset.withFetchWord 24 0x080099) (fun t => (t.get 0, t.pc, t.ir)) = some (8, 3, 0x99) := by decide

/-! ### One tick each, from spec/95_test_vectors.md -/

/-- V-HLT-2. -/
theorem test_hlt_at_top : after (st 0xFF [(255, 0x01)]) (fun t => (t.run, t.pc, t.ir, t.diag)) =
    some (.halted, 0xFF, 0x01, []) := by decide
/-- V-LDI-6: operands across the wrap. -/
theorem test_ldi_straddles_wrap : after (st 0xFE [(0, 0x77), (254, 0x99), (255, 0x02)])
    (fun t => (t.get 2, t.pc)) = some (0x77, 0x01) := by decide
/-- V-LDI-5. -/
theorem test_ldi_bad_register : after (st 0 [(0, 0x99), (1, 0x08), (2, 0x01)])
    (fun t => (t.run, t.pc, t.ir, t.diag)) =
    some (.halted, 0, 0x99, [⟨.invalidRegisterIndex, 0, 0x99⟩]) := by decide
/-- V-ALU-12: the stack pointer as a plain second source; the product wraps. -/
theorem test_mul_wraps : after ((st 0 [(0, 0xAA), (2, 0x07)]).set 0 2) (fun t => (t.get 0, t.get 7, t.pc)) =
    some (0xE8, 0xF4, 0x03) := by decide
/-- V-ALU-6: squared. -/
theorem test_mul_same_register : after ((st 0 [(0, 0xAA), (1, 3), (2, 3)]).set 3 0x0D) (fun t => t.get 3) =
    some 0xA9 := by decide
/-- V-ALU-9: the destination is the first operand. -/
theorem test_add_destination : after (((st 0 [(0, 0xA8), (1, 1)]).set 0 5).set 1 7)
    (fun t => (t.get 1, t.get 0, t.pc)) = some (0x0C, 0x05, 0x03) := by decide
/-- V-ALU-10: only `rb` is bad. -/
theorem test_add_bad_rb : after ((st 0 [(0, 0xA8), (2, 9)]).set 0 5) (fun t => (t.get 0, t.pc, t.diag)) =
    some (5, 0, [⟨.invalidRegisterIndex, 0, 0xA8⟩]) := by decide
/-- V-PRN-3. -/
theorem test_prn_sp : after (st 0 [(0, 0x43), (1, 7)]) (fun t => (t.out, t.pc)) = some ([244], 2) := by decide
/-- V-STK-3: PUSH R7 stores the decremented SP. -/
theorem test_push_sp : after (st 0 [(0, 0x4D), (1, 7)]) (fun t => (t.getSP, t.memRead 0xF3, t.pc)) =
    some (0xF3, 0xF3, 2) := by decide
/-- V-STK-2: SP wraps through 0. -/
theorem test_push_wraps : after (((st 0 [(0, 0x4D), (1, 1)]).set 7 0).set 1 0xAB)
    (fun t => (t.getSP, t.memRead 0xFF)) = some (0xFF, 0xAB) := by decide
/-- V-STK-8: POP R7 leaves the popped byte plus one. -/
theorem test_pop_sp : after ((st 0 [(0, 0x4C), (1, 7), (0xF3, 0x20)]).set 7 0xF3) (fun t => (t.getSP, t.pc)) =
    some (0x21, 2) := by decide
/-- V-STK-7: SP wraps to 0. -/
theorem test_pop_wraps : after ((st 0 [(0, 0x4C), (1, 2), (255, 0x9C)]).set 7 0xFF)
    (fun t => (t.get 2, t.getSP, t.memRead 0xFF)) = some (0x9C, 0, 0x9C) := by decide
/-- V-CTL-4: CALL R7 jumps to the decremented SP. -/
theorem test_call_sp : after (st 0x10 [(16, 0x48), (17, 7)]) (fun t => (t.getSP, t.memRead 0xF3, t.pc)) =
    some (0xF3, 0x12, 0xF3) := by decide
/-- V-CTL-2: the return address wraps. -/
theorem test_call_return_wraps : after ((st 0xFE [(254, 0x48), (255, 1)]).set 1 0x30)
    (fun t => (t.memRead 0xF3, t.pc)) = some (0, 0x30) := by decide
/-- V-CTL-8. -/
theorem test_ret_wraps : after ((st 0 [(0, 0x09), (255, 0x66)]).set 7 0xFF) (fun t => (t.pc, t.getSP)) =
    some (0x66, 0) := by decide
/-- V-CTL-12. -/
theorem test_jmp_sp : after (st 0 [(0, 0x50), (1, 7)]) (fun t => (t.pc, t.getSP)) = some (0xF4, 0xF4) := by decide
/-- V-FLT-5: bytes after an illegal opcode are never read or checked. -/
theorem test_invalid_opcode : after (st 0 [(0, 0xFF), (1, 9), (2, 9)]) (fun t => (t.run, t.pc, t.ir, t.out, t.diag)) =
    some (.halted, 0, 0xFF, [], [⟨.invalidOpcode, 0, 0xFF⟩]) := by decide
/-- The numeric codes of R83. -/
theorem test_cause_codes : (Cause.invalidOpcode.code, Cause.invalidRegisterIndex.code) = (1, 2) := by decide
/-- V-FLT-10. -/
theorem test_stop_and_tick : (match (st 0 [(0, 0x99), (2, 8)]).stopAndTick with
    | .next t => some (t.run, t.get 0, t.pc) | _ => none) = some (.halted, 0, 0) := by decide
/-- "Address 255 is the last" (R99): of two bytes loaded from 255 on, one is poked, and address 0 is not. -/
theorem test_loader_stops_at_255 : loadFrom 255 [0x09, 0x01] = [.poke 0xFF 0x09] := by decide
/-- R99: one poke a byte, the first at address 0. -/
theorem test_loader_ascends : loadUnder .refuse [0x43, 0x07, 0x01] = [.poke 0 0x43, .poke 1 0x07, .poke 2 0x01] := by
  decide
/-- The output `halted` (R17). -/
theorem test_halted_out : (State.reset.haltedOut, State.reset.stop.haltedOut) = (false, true) := by decide
/-- The reading of R46 that the spec did not choose (R85): under `mask` 0x08 would name `x[0]`. -/
theorem test_mask_policy : (regOperandUnder .mask 0x08, regOperand 0x08) = (some 0, none) := by decide

/-! ### Witnesses: states and operands that meet the hypotheses of each statement -/

/-- An LDI across the end of memory, `M[FE] = 99`, `M[FF] = 07`, `M[00] = 77`. -/
def ldiAtWrap : State := st 0xFE [(0, 0x77), (254, 0x99), (255, 0x07)]

/-- A PUSH R7 at address 0. -/
def pushSP : State := st 0 [(0, 0x4D), (1, 0x07)]

/-- A JMP R0 at address 3 with `x[0] = 3` (V-CTL-11). -/
def jmpSelf : State := (st 3 [(3, 0x50)]).set 0 3

/-- The reset state, halted by a stop. -/
def stopped : State := State.reset.stop

theorem witness_EncodeOfDecodeIsIdentity : decode [0x99, 0x07, 0xFF, 0x01] = .ok (.ldi 7 255) [0x01] := by decide

theorem witness_StepRunsTheDecodedInstruction : ldiAtWrap.run = .running ∧
    decode [ldiAtWrap.memRead ldiAtWrap.pc, ldiAtWrap.memRead (ldiAtWrap.pc + 1),
      ldiAtWrap.memRead (ldiAtWrap.pc + 2)] = .ok (.ldi 7 0x77) [] := by decide

theorem witness_StepRunsTheEncodingStoredAtPc : ldiAtWrap.run = .running ∧
    ∀ (k : Nat) (h : k < (encode (.ldi 7 0x77)).length),
      ldiAtWrap.memRead (ldiAtWrap.pc + BitVec.ofNat 8 k) = (encode (.ldi 7 0x77))[k] := by decide

theorem witness_TickIsGatedByTheRunState : stopped.run = .halted ∧ ldiAtWrap.run = .running := by decide

theorem witness_EveryTickFetchesItsOpcodeIntoIr : ldiAtWrap.run = .running := by decide

theorem witness_UnmappedOpcodeHaltsWithOneRecord : State.reset.run = .running ∧
    decodeOpcode (State.reset.memRead State.reset.pc) = none := by decide

theorem witness_BadRegisterOperand_ra : (st 0 [(0, 0x43), (1, 8)]).run = .running ∧
    (st 0 [(0, 0x43), (1, 8)]).memRead 0 = Handler.prn.opcode ∧ Handler.prn.format ≠ .z ∧
    7 < ((st 0 [(0, 0x43), (1, 8)]).memRead 1).toNat := by decide

theorem witness_BadRegisterOperand_rb : (st 0 [(0, 0xAA), (2, 8)]).run = .running ∧
    (st 0 [(0, 0xAA), (2, 8)]).memRead 0 = Handler.mul.opcode ∧ Handler.mul.format = .rr ∧
    7 < ((st 0 [(0, 0xAA), (2, 8)]).memRead 2).toNat := by decide

theorem witness_TickOutcomeIsOneOfThree : pushSP.run = .running := by decide

theorem witness_FaultingTickChangesOnlyIrRunDiag :
    ∃ t, step State.reset = .next t ∧ t.diag ≠ State.reset.diag := ⟨_, rfl, by decide⟩

theorem witness_PcAfterEveryTick : pushSP.run = .running ∧ (Instr.push 7).wellFormed = true ∧
    (Instr.push 8).wellFormed = false ∧ (7 : Byte).toNat = (7 : RegIdx).val ∧
    decode [State.reset.memRead 0, State.reset.memRead 1, State.reset.memRead 2] = .invalidOpcode 0 := by decide

theorem witness_HandlerKeepsItsContract :
    ([.hlt, .ldi 7 0xFF, .mul 7 7, .add 0 7, .prn 7, .push 7, .pop 7, .call 7, .ret, .jmp 7] : List Instr).all
      Instr.wellFormed ∧ (7 : Byte).toNat = (7 : RegIdx).val := by decide

theorem witness_RegistersChange_destination :
    ∃ t, step ldiAtWrap = .next t ∧ t.get 7 ≠ ldiAtWrap.get 7 := ⟨_, rfl, by decide⟩

theorem witness_RegistersChange_stackPointer :
    ∃ t, step pushSP = .next t ∧ t.get 7 ≠ pushSP.get 7 := ⟨_, rfl, by decide⟩

theorem witness_HltHaltsCleanly : (st 0xFF [(255, 0x01)]).run = .running ∧
    (st 0xFF [(255, 0x01)]).memRead 0xFF = opcHLT := by decide

theorem witness_LdiLoadsTheImmediate : (7 : Byte).toNat = (7 : RegIdx).val := by decide
theorem witness_MulStoresTheProduct :
    (7 : Byte).toNat = (7 : RegIdx).val ∧ (0 : Byte).toNat = (0 : RegIdx).val := by decide
theorem witness_AddStoresTheSum :
    (0 : Byte).toNat = (0 : RegIdx).val ∧ (7 : Byte).toNat = (7 : RegIdx).val := by decide
theorem witness_PrnEmitsTheRegister : (0 : Byte).toNat = (0 : RegIdx).val := by decide
theorem witness_PushStoresBelowTheStackTop :
    (7 : Byte).toNat = (Config.spIndex).val ∧ pushSP.decSP.getSP = 0xF3 := by decide
theorem witness_PopLoadsTheStackTop : (7 : Byte).toNat = (Config.spIndex).val ∧
    (6 : Byte).toNat = (6 : RegIdx).val ∧ (6 : RegIdx) ≠ Config.spIndex := by decide
theorem witness_CallPushesTheReturnAddress : (7 : Byte).toNat = (Config.spIndex).val ∧
    (State.reset.set 7 0).decSP.getSP = 0xFF := by decide
theorem witness_JmpSetsThePc : (7 : Byte).toNat = (7 : RegIdx).val := by decide

/-- Each of the eight, at the least byte that names no register. -/
theorem witness_IllFormedInstructionTakesTheFault :
    ([.ldi 8 0, .mul 8 0, .mul 0 8, .add 8 0, .add 0 8, .prn 8, .push 8, .pop 8, .call 8, .jmp 8] : List Instr).all
      (fun i => !i.wellFormed) := by decide

theorem witness_PushThenPopIsARoundTrip : (7 : Byte).toNat = (7 : RegIdx).val ∧ ∃ t, exec (.push 7) pushSP = .next t ∧
    ∃ u : State, u.getSP = t.getSP ∧ u.memRead t.getSP = t.memRead t.getSP := ⟨by decide, _, rfl, _, rfl, rfl⟩

theorem witness_CallThenRetReturns : (7 : Byte).toNat = (7 : RegIdx).val ∧ ∃ t, exec (.call 7) pushSP = .next t ∧
    ∃ u : State, u.getSP = t.getSP ∧ u.memRead t.getSP = t.memRead t.getSP := ⟨by decide, _, rfl, _, rfl, rfl⟩

theorem witness_JumpToItselfNeverHalts : jmpSelf.run = .running ∧ jmpSelf.memRead jmpSelf.pc = opcJMP ∧
    (jmpSelf.memRead (jmpSelf.pc + 1)).toNat = (0 : RegIdx).val ∧ jmpSelf.get 0 = jmpSelf.pc := by decide

theorem witness_OnlyPushAndCallWriteMemory : (∃ t, step pushSP = .next t) ∧ (∃ t, step ldiAtWrap = .next t) ∧
    ldiAtWrap.memRead ldiAtWrap.pc ≠ opcPUSH ∧ ldiAtWrap.memRead ldiAtWrap.pc ≠ opcCALL :=
  ⟨⟨_, rfl⟩, ⟨_, rfl⟩, by decide, by decide⟩

theorem witness_MemoriesThatReadAlikeAreEqual : Memory.wf [(0, 1), (255, 0xFF)] ∧
    ∀ a : Byte, Memory.read [(0, 1), (255, 0xFF)] a = Memory.read [(0, 1), (255, 0xFF)] a := ⟨by decide, fun _ => rfl⟩

theorem witness_OutputGrowsOnlyByPrn : (∃ t, step (st 0 [(0, 0x43), (1, 7)]) = .next t) := ⟨_, rfl⟩

theorem witness_StreamsAreNeverReadBack : ∃ t, step (st 0 [(0, 0x43), (1, 7)]) = .next t := ⟨_, rfl⟩

theorem witness_StopHaltsAndChangesNothingElse : stopped.run = .halted := by decide

theorem witness_PokeIsSeenByTheNextFetch : ldiAtWrap.run = .running ∧ (0xFE : Byte) = ldiAtWrap.pc := by decide

theorem witness_HaltedIsTerminalUntilReset : stopped.run = .halted ∧
    Transaction.reset ∉ ([.tick, .poke 0 1, .stop, .tick] : List Transaction) := by decide

theorem witness_BootPlacesTheProgram : (List.replicate 256 (0x01 : Byte)).length ≤ 256 ∧
    1 < ([0x09, 0x01] : List Byte).length ∧ ([0x09, 0x01] : List Byte).length ≤ (2 : Byte).toNat :=
  ⟨Nat.le_of_eq List.length_replicate, by decide, by decide⟩

theorem witness_BootPlacesTheProgram_overlong : 256 < (List.replicate 257 (0x01 : Byte)).length :=
  Nat.lt_of_lt_of_eq (by decide) List.length_replicate.symm

theorem witness_LoaderRefusesOrTruncatesAnOverlongProgram : 256 < (List.replicate 257 (0x01 : Byte)).length :=
  Nat.lt_of_lt_of_eq (by decide) List.length_replicate.symm

/-- A RUNNING state that has executed an instruction and meets the invariant, beside the reset state. -/
theorem witness_TickKeepsTheInvariant : (st 0 [(0, 0x50)]).Inv ∧ ∃ t, step (st 0 [(0, 0x50)]) = .next t :=
  ⟨⟨by decide, .inl rfl, fun _ => ⟨by decide, .inl rfl⟩⟩, _, rfl⟩

/-- A HALTED state with a diagnostic meets the invariant too. -/
theorem witness_TransactionsKeepTheInvariant : State.Inv
    { st 0 [(0, 0x43), (1, 8)] with ir := 0x43, run := .halted, diag := [⟨.invalidRegisterIndex, 0, 0x43⟩] } :=
  ⟨by decide, .inr ⟨_, rfl, rfl, by decide, fun _ => ⟨.prn, by decide, by decide⟩⟩, by decide⟩

theorem witness_HaltCauseIsReadOffDiagAndIr : (st 0 [(0, 0x01)]).Inv ∧ (st 0 [(0, 0x01)]).run = .running :=
  ⟨⟨by decide, .inl rfl, fun _ => ⟨by decide, .inl rfl⟩⟩, rfl⟩

end Sys2Proof.Tests
end

section
/-! ### Who writes memory (spec/20_memory.md R28) -/

namespace Sys2Proof.Machine

section
variable {s t : State} {ra rb : Byte}

/-- A push writes one byte, at the decremented stack pointer (R76). -/
theorem State.pushByte_mem (s : State) (v : State → Byte) :
    (s.pushByte v).mem = s.mem.write (s.getSP - 1) (v s.decSP) := by
  simp [State.pushByte]

/-- A bad register operand faults before any write, so a one-operand check adds no write to its handler's. -/
theorem withReg_mem {handler : RegIdx → State} (h : withReg ra s handler = .next t) :
    t.mem = s.mem ∨ ∃ a, t = handler a := by
  obtain ⟨a, -, e⟩ | ⟨-, e⟩ := withReg_cases s ra handler
  · exact .inr ⟨a, Host.Outcome.next.inj (h.symm.trans e)⟩
  · obtain rfl := Host.Outcome.next.inj (h.symm.trans e)
    exact .inl s.badRegister_mem

theorem withReg_keeps_mem {handler : RegIdx → State} (h : withReg ra s handler = .next t)
    (hk : ∀ a, (handler a).mem = s.mem) : t.mem = s.mem := by
  obtain e | ⟨a, rfl⟩ := withReg_mem h
  · exact e
  · exact hk a

theorem withRegs_keeps_mem {handler : RegIdx → RegIdx → State} (h : withRegs ra rb s handler = .next t)
    (hk : ∀ a b, (handler a b).mem = s.mem) : t.mem = s.mem := by
  obtain ⟨a, b, -, -, e⟩ | ⟨-, e⟩ := withRegs_cases s ra rb handler <;>
    obtain rfl := Host.Outcome.next.inj (h.symm.trans e)
  · exact hk a b
  · exact s.badRegister_mem

/-- When the handler is a push and then moves of registers and `pc` only, memory is kept (the check failed) or
gets one byte at the decremented stack pointer. -/
theorem withReg_push_mem {handler : RegIdx → State} {v : RegIdx → State → Byte}
    (h : withReg ra s handler = .next t) (hp : ∀ a, (handler a).mem = (s.pushByte (v a)).mem) :
    t.mem = s.mem ∨ ∃ b, t.mem = s.mem.write (s.getSP - 1) b := by
  obtain e | ⟨a, rfl⟩ := withReg_mem h
  · exact .inl e
  · exact .inr ⟨_, (hp a).trans (s.pushByte_mem (v a))⟩

/-- Everything an instruction can do to memory: nothing, or, in PUSH and CALL, one write at the decremented
stack pointer (R28). -/
theorem exec_mem_cases {i : Instr} (h : exec i s = .next t) :
    t.mem = s.mem ∨
      ((i.handler = .push ∨ i.handler = .call) ∧ ∃ v, t.mem = s.mem.write (s.getSP - 1) v) := by
  cases i with
  | hlt => cases h; exact .inl rfl
  | ldi => exact .inl (withReg_keeps_mem h fun _ => rfl)
  | mul => exact .inl (withRegs_keeps_mem h fun _ _ => rfl)
  | add => exact .inl (withRegs_keeps_mem h fun _ _ => rfl)
  | prn => exact .inl (withReg_keeps_mem h fun _ => rfl)
  | push =>
    exact (withReg_push_mem (v := fun a u => u.get a) h fun _ => rfl).imp_right (⟨.inl rfl, ·⟩)
  | pop => exact .inl (withReg_keeps_mem h fun _ => rfl)
  | call =>
    exact (withReg_push_mem (v := fun _ u => u.getPC + 2) h fun _ => rfl).imp_right (⟨.inr rfl, ·⟩)
  | ret => cases h; exact .inl rfl
  | jmp => exact .inl (withReg_keeps_mem h fun _ => rfl)

/-- Everything a tick can do to memory: nothing, or, when its opcode is PUSH or CALL, one write at the
decremented stack pointer (R28). -/
theorem step_mem_cases (h : step s = .next t) :
    t.mem = s.mem ∨
      ((s.memRead s.pc = opcPUSH ∨ s.memRead s.pc = opcCALL) ∧ ∃ v, t.mem = s.mem.write (s.getSP - 1) v) := by
  obtain ⟨-, e⟩ | ⟨-, -, e⟩ | ⟨i, -, ho, -, e⟩ := step_cases s
  · cases h.symm.trans e; exact .inl rfl
  · cases h.symm.trans e; exact .inl rfl
  · obtain hm | ⟨hi, hv⟩ := exec_mem_cases (e.symm.trans h)
    · exact .inl hm
    · rw [ho]
      exact .inr ⟨hi.imp (congrArg Handler.opcode) (congrArg Handler.opcode), hv⟩

theorem memKept_of_mem_eq (h : t.mem = s.mem) : memKept s t := fun b => congrArg (Memory.read · b) h

theorem memKeptBut_of_mem_write {a v : Byte} (h : t.mem = s.mem.write a v) : memKeptBut a s t := fun b hb => by
  rw [State.memRead, h, Memory.read_write, if_neg hb, State.memRead]

end

/-- Settles O33: the first part is the memory contract `State.memRead_memWrite`; the second reads the frames off
`step_mem_cases`, everything a tick can do to memory. -/
theorem onlyPushAndCallWriteMemory : Obligations.OnlyPushAndCallWriteMemory := by
  refine ⟨State.memRead_memWrite, fun s t h => ?_⟩
  rw [State.getSP_decSP]
  obtain hm | ⟨hop, v, hm⟩ := step_mem_cases h
  · have hk := memKept_of_mem_eq hm
    exact ⟨fun b _ => hk b, fun _ _ => hk⟩
  · exact ⟨memKeptBut_of_mem_write hm, fun hp hc => absurd hop (not_or.2 ⟨hp, hc⟩)⟩

end Sys2Proof.Machine
end

section
/-! ### The tick (spec/40_execution_cycle.md R55 to R66) -/

namespace Sys2Proof

theorem Decoded.instr?_eq_some {d : Decoded} {i : Instr} : d.instr? = some i ↔ ∃ rest, d = .ok i rest := by
  cases d <;> simp [Decoded.instr?]

namespace Machine

section
variable {s : State} {ra rb : Byte}

/-! What a tick runs (R57, R58, R62) -/

/-- The fetch reads as many bytes as the format has; decoding three, as many as the longest has, names the same
instruction, or likewise none (R41, R58, R60). -/
theorem State.fetchInstr_eq_decode (s : State) :
    s.fetchInstr = (decode [s.memRead s.pc, s.memRead (s.pc + 1), s.memRead (s.pc + 2)]).instr? := by
  cases hd : decodeOpcode (s.memRead s.pc) with
  | none => rw [State.fetchInstr_of_unmapped hd, decode_of_unmapped hd]; rfl
  | some h =>
    have ho := opcode_of_decodeOpcode hd
    rw [State.fetchInstr_of_handler ho, ho, decode_cons_opcode]

theorem State.fetchInstr_eq_some {i : Instr} : s.fetchInstr = some i ↔
    ∃ rest, decode [s.memRead s.pc, s.memRead (s.pc + 1), s.memRead (s.pc + 2)] = .ok i rest := by
  rw [State.fetchInstr_eq_decode, Decoded.instr?_eq_some]

/-! What every instruction answers, whether its operands pass the check or not (R61, R62) -/

/-- The check of one operand answers a next state, with whatever the handler and the fault both give. -/
theorem withReg_next {P : State → Prop} {handler : RegIdx → State} (hk : ∀ a, P (handler a))
    (hb : P s.badRegister) : ∃ t, withReg ra s handler = .next t ∧ P t := by
  obtain ⟨a, -, e⟩ | ⟨-, e⟩ := withReg_cases s ra handler
  · exact ⟨_, e, hk a⟩
  · exact ⟨_, e, hb⟩

/-- The check of two operands answers a next state, with whatever the handler and the fault both give. -/
theorem withRegs_next {P : State → Prop} {handler : RegIdx → RegIdx → State} (hk : ∀ a b, P (handler a b))
    (hb : P s.badRegister) : ∃ t, withRegs ra rb s handler = .next t ∧ P t := by
  obtain ⟨a, b, -, -, e⟩ | ⟨-, e⟩ := withRegs_cases s ra rb handler
  · exact ⟨_, e, hk a b⟩
  · exact ⟨_, e, hb⟩

/-- Every instruction, ill-formed too, answers a next state and leaves `ir` (R57, R64). -/
theorem exec_next_ir (i : Instr) (s : State) : ∃ t, exec i s = .next t ∧ t.ir = s.ir := by
  cases i with
  | hlt => exact ⟨_, exec_hlt, rfl⟩
  | ldi => exact withReg_next (fun _ => rfl) rfl
  | mul => exact withRegs_next (fun _ _ => rfl) rfl
  | add => exact withRegs_next (fun _ _ => rfl) rfl
  | prn => exact withReg_next (fun _ => rfl) rfl
  | push => exact withReg_next (fun _ => rfl) rfl
  | pop => exact withReg_next (fun _ => rfl) rfl
  | call => exact withReg_next (fun _ => rfl) rfl
  | ret => exact ⟨_, exec_ret, rfl⟩
  | jmp => exact withReg_next (fun _ => rfl) rfl

/-! Ticks and stops in HALTED (R55, R66, R67) -/

theorem runTransactions_ticks_of_halted (h : s.run = .halted) (k : Nat) :
    runTransactions (List.replicate k .tick) s = .next s := by
  induction k with
  | zero => rfl
  | succ k ih => rw [List.replicate_succ, runTransactions_cons (tr := .tick) (step_of_halted h), ih]

/-- A first tick that halts is the last one with an effect. -/
theorem runTransactions_ticks_of_step_halted {t : State} (h : step s = .next t) (ht : t.run = .halted) (k : Nat) :
    runTransactions (List.replicate (k + 1) .tick) s = .next t := by
  rw [List.replicate_succ, runTransactions_cons (tr := .tick) h, runTransactions_ticks_of_halted ht]

theorem State.stop_of_halted (h : s.run = .halted) : s.stop = s := by
  rw [State.stop, ← h]

@[simp] theorem State.stop_stop (s : State) : s.stop.stop = s.stop := State.stop_of_halted rfl

end

/-- Settles O5: the bytes decode to the instruction the tick fetches (`State.fetchInstr_eq_some`). -/
theorem stepRunsTheDecodedInstruction : Obligations.StepRunsTheDecodedInstruction :=
  fun _ _ rest hr hd => step_of_fetched hr (State.fetchInstr_eq_some.2 ⟨rest, hd⟩)

/-- Settles O7: by induction on the ticks in HALTED, and by `step_cases` in RUNNING. -/
theorem tickIsGatedByTheRunState : Obligations.TickIsGatedByTheRunState := by
  refine fun s => ⟨runTransactions_ticks_of_halted, fun hr => ?_⟩
  obtain ⟨hh, -⟩ | ⟨-, hd, e⟩ | ⟨i, -, -, hi, e⟩ := step_cases s
  · rw [hr] at hh; cases hh
  · exact .inr ⟨hd, e⟩
  · obtain ⟨rest, hdec⟩ := State.fetchInstr_eq_some.1 hi
    exact .inl ⟨i, rest, hdec, e⟩

/-- Settles O8: InvalidOpcode leaves the fetched `ir`, and so does every instruction (`exec_next_ir`). -/
theorem everyTickFetchesItsOpcodeIntoIr : Obligations.EveryTickFetchesItsOpcodeIntoIr := by
  refine fun s hr => ⟨?_, s.fetchOpcode_pc, s.fetchOpcode_ir⟩
  obtain ⟨hh, -⟩ | ⟨-, -, e⟩ | ⟨i, -, -, -, e⟩ := step_cases s
  · rw [hr] at hh; cases hh
  · exact ⟨_, e, rfl⟩
  · rw [e]; exact exec_next_ir i s.fetchOpcode

/-- Settles O9: the first tick takes InvalidOpcode and halts, and the ticks after it find the core HALTED. -/
theorem unmappedOpcodeHaltsWithOneRecord : Obligations.UnmappedOpcodeHaltsWithOneRecord :=
  fun _ hr hd => runTransactions_ticks_of_step_halted (step_of_unmapped hr hd) rfl

/-- Settles O37: `stop`, HLT and the fault entry are each `State.stop` by definition; that it is idempotent and
does nothing in HALTED is `State.stop_of_halted`. -/
theorem stopHaltsAndChangesNothingElse : Obligations.StopHaltsAndChangesNothingElse := fun s =>
  ⟨rfl, congrArg Host.Outcome.next s.stop_stop, fun h => congrArg Host.Outcome.next (State.stop_of_halted h),
    exec_hlt, fun _ _ _ => rfl⟩

end Machine

end Sys2Proof
end

section
/-! ### Load immediate (spec/42_load_immediate.md R69) -/

namespace Sys2Proof.Machine

theorem regsKeptBut_set (s : State) (a : RegIdx) (v : Int) : regsKeptBut [a] s (s.set a v) :=
  fun _ hj => s.get_set_of_ne (List.ne_of_not_mem_cons hj) v

/-- The frame of every handler that writes one register and moves `pc` past the instruction (R63, R64). -/
theorem set_advancePC_frame (s : State) (a : RegIdx) (v : Int) (n : Nat) :
    regsKeptBut [a] s ((s.set a v).advancePC n) ∧ memKept s ((s.set a v).advancePC n) ∧
      coreKept s ((s.set a v).advancePC n) :=
  ⟨regsKeptBut_set s a v, fun _ => rfl, rfl, rfl, rfl, rfl⟩

/-- Settles O20: LDI is `set` and then `advancePC` (`exec_ldi`); the register masks the immediate to itself. -/
theorem ldiLoadsTheImmediate : Obligations.LdiLoadsTheImmediate := by
  intro s ra imm a ha
  refine ⟨_, exec_ldi ha, ?_, ?_, set_advancePC_frame s a _ 3⟩
  · rw [State.advancePC_get, State.get_set_same, maskByte_immediate]
  · exact State.advancePC_pc _ 3

end Sys2Proof.Machine
end

section
/-! ### The ALU (spec/43_alu.md R70 to R72) -/

namespace Sys2Proof.Machine

theorem aluFn_add_toNat (a b : Byte) : (aluFn .add a b).toNat = (a.toNat + b.toNat) % 256 :=
  (BitVec.toNat_ofNat _ 8).trans (Nat.mod_mod _ 256)

theorem aluFn_mul_toNat (a b : Byte) : (aluFn .mul a b).toNat = (a.toNat * b.toNat) % 256 :=
  (BitVec.toNat_ofNat _ 8).trans (Nat.mod_mod _ 256)

/-- The operands are the registers before the write, also when `a = b` (R70). -/
@[simp] theorem State.get_aluApply_same (s : State) (op : AluOp) (a b : RegIdx) :
    (s.aluApply op a b).get a = aluFn op (s.get a) (s.get b) :=
  (s.get_set_same a _).trans (maskByte_byte _)

/-- Settles O21: MUL is `aluApply` and then `advancePC` (`exec_mul`), so its frame is that of one register
write. -/
theorem mulStoresTheProduct : Obligations.MulStoresTheProduct := by
  intro s ra rb a b ha hb
  refine ⟨_, exec_mul ha hb, ?_, State.advancePC_pc _ 3, set_advancePC_frame s a _ 3⟩
  rw [State.advancePC_get, State.get_aluApply_same, aluFn_mul_toNat]

/-- Settles O22: as MUL, with the sum for the product (`exec_add`). -/
theorem addStoresTheSum : Obligations.AddStoresTheSum := by
  intro s ra rb a b ha hb
  refine ⟨_, exec_add ha hb, ?_, State.advancePC_pc _ 3, set_advancePC_frame s a _ 3⟩
  rw [State.advancePC_get, State.get_aluApply_same, aluFn_add_toNat]

/-- Settles O17: the result by the operation (`aluFn_add_toNat`, `aluFn_mul_toNat`); the frame is that of one
register write. -/
theorem aluWritesResultModulo256 : Obligations.AluWritesResultModulo256 := by
  intro op s a b
  refine ⟨?_, regsKeptBut_set s a _, s.aluApply_memRead op a b, s.aluApply_pc op a b, rfl, rfl, rfl, rfl⟩
  rw [State.get_aluApply_same]
  cases op with
  | add => exact aluFn_add_toNat _ _
  | mul => exact aluFn_mul_toNat _ _

end Sys2Proof.Machine
end

section
/-! ### Output (spec/44_output.md R74) -/

namespace Sys2Proof.Machine

/-- Settles O23: PRN is `output` and then `advancePC` (`exec_prn`); the first writes only `out` and the second
only `pc`, so every other field is kept by definition. -/
theorem prnEmitsTheRegister : Obligations.PrnEmitsTheRegister := by
  intro s ra a ha
  refine ⟨_, exec_prn ha, ?_, State.advancePC_pc _ 2, fun _ _ => rfl, fun _ => rfl, rfl, rfl, rfl⟩
  rw [State.advancePC_out, State.output_out]

end Sys2Proof.Machine
end

section
/-! ### Control transfer (spec/46_control_transfer.md R80, R81) -/

namespace Sys2Proof.Machine

/-- Moving the stack pointer writes no other register (R76). -/
theorem regsKeptBut_incSP (s : State) : regsKeptBut [Config.spIndex] s s.incSP := regsKeptBut_set s _ _

/-- `setPC` of a byte loads that byte: `pc` masks it to itself (R15). -/
theorem State.setPC_byte_pc (s : State) (b : Byte) : (s.setPC b.toNat).pc = b := maskByte_byte b

/-- Settles O27: RET is `setPC` of the byte at SP and then `incSP` (`exec_ret`); neither stores to memory, and
the SP that `incSP` raises is the old one, which `setPC` keeps. -/
theorem retPopsThePc : Obligations.RetPopsThePc := by
  intro s
  refine ⟨_, exec_ret, ?_, ?_, regsKeptBut_incSP (s.setPC _), fun _ => rfl, rfl, rfl, rfl, rfl⟩
  · rw [State.incSP_pc, State.setPC_byte_pc]
  · rw [State.getSP_incSP, State.setPC_getSP]

/-- Settles O28: JMP is `setPC` of the register (`exec_jmp`), which writes only `pc`. -/
theorem jmpSetsThePc : Obligations.JmpSetsThePc := fun s _ a ha =>
  ⟨_, exec_jmp ha, s.setPC_byte_pc (s.get a), fun _ _ => rfl, fun _ => rfl, rfl, rfl, rfl, rfl⟩

end Sys2Proof.Machine
end

section
/-! ### The first tick after reset (spec/70_reset_and_hazards.md R98) -/

namespace Sys2Proof.Machine

/-- Settles O42: reset leaves the core RUNNING, so the tick loads `ir` from the byte at `pc`
(`everyTickFetchesItsOpcodeIntoIr`); reset puts `pc` at address 0 and keeps memory. -/
theorem firstTickAfterResetFetchesAddressZero : Obligations.FirstTickAfterResetFetchesAddressZero := by
  intro s
  obtain ⟨⟨u, hu, hir⟩, -, -⟩ := everyTickFetchesItsOpcodeIntoIr s.resetCore s.resetCore_run
  rw [State.resetCore_memRead, State.resetCore_pc, Config.pcReset] at hir
  exact ⟨s.resetCore, u, rfl, hu, hir⟩

end Sys2Proof.Machine
end

section
/-! ### Encoding and decoding (spec/30_encoding.md R41 to R51) -/

namespace Sys2Proof

/-! The operand bytes, apart from the opcode byte -/

/-- The bytes of an instruction after its opcode byte, lowest address first (R43 to R45). -/
def Instr.operands : Instr → List Byte
  | .hlt => []
  | .ldi ra imm => [ra, imm]
  | .mul ra rb => [ra, rb]
  | .add ra rb => [ra, rb]
  | .prn ra => [ra]
  | .push ra => [ra]
  | .pop ra => [ra]
  | .call ra => [ra]
  | .ret => []
  | .jmp ra => [ra]

/-- The encoding is the handler's opcode byte and then the operand bytes (R42 to R45). -/
theorem encode_eq_cons (i : Instr) : encode i = i.handler.opcode :: i.operands := by cases i <;> rfl

theorem encode_length_le (i : Instr) : (encode i).length ≤ 3 := by cases i <;> simp [encode]

/-- A handler reads its own operand bytes and leaves what follows (R51). -/
theorem decodeOperands_operands (i : Instr) (rest : List Byte) :
    i.handler.decodeOperands (i.operands ++ rest) = .ok i rest := by cases i <;> rfl

theorem operand1_eq_ok {mk : Byte → Instr} {bs rest : List Byte} {i : Instr} (h : operand1 mk bs = .ok i rest) :
    ∃ ra, i = mk ra ∧ bs = ra :: rest := by
  cases bs with
  | nil => cases h
  | cons ra bs => cases h; exact ⟨ra, rfl, rfl⟩

theorem operand2_eq_ok {mk : Byte → Byte → Instr} {bs rest : List Byte} {i : Instr}
    (h : operand2 mk bs = .ok i rest) : ∃ ra b, i = mk ra b ∧ bs = ra :: b :: rest := by
  match bs with
  | [] => cases h
  | [_] => cases h
  | ra :: b :: bs => cases h; exact ⟨ra, b, rfl, rfl⟩

/-- What a handler read is its own instruction, and the bytes it read are that instruction's operands. -/
theorem decodeOperands_eq_ok {h : Handler} {bs rest : List Byte} {i : Instr}
    (hd : h.decodeOperands bs = .ok i rest) : i.handler = h ∧ i.operands ++ rest = bs := by
  cases h with
  | hlt | ret => cases hd; exact ⟨rfl, rfl⟩
  | ldi | mul | add => obtain ⟨ra, b, rfl, rfl⟩ := operand2_eq_ok hd; exact ⟨rfl, rfl⟩
  | prn | push | pop | call | jmp => obtain ⟨ra, rfl, rfl⟩ := operand1_eq_ok hd; exact ⟨rfl, rfl⟩

theorem operand1_ne_invalidOpcode (mk : Byte → Instr) (bs : List Byte) (b : Byte) :
    operand1 mk bs ≠ .invalidOpcode b := by
  unfold operand1; split <;> exact nofun

theorem operand2_ne_invalidOpcode (mk : Byte → Byte → Instr) (bs : List Byte) (b : Byte) :
    operand2 mk bs ≠ .invalidOpcode b := by
  unfold operand2; split <;> exact nofun

/-- Only the opcode byte can be invalid: no operand byte is refused by the decoder (R49). -/
theorem decodeOperands_ne_invalidOpcode (h : Handler) (bs : List Byte) (b : Byte) :
    h.decodeOperands bs ≠ .invalidOpcode b := by
  cases h with
  | hlt | ret => exact nofun
  | ldi | mul | add => exact operand2_ne_invalidOpcode _ bs b
  | prn | push | pop | call | jmp => exact operand1_ne_invalidOpcode _ bs b

/-- A list of bytes decodes to an instruction exactly when it begins with the encoding. -/
theorem decode_eq_ok {bs rest : List Byte} {i : Instr} : decode bs = .ok i rest ↔ encode i ++ rest = bs := by
  constructor
  · intro hd
    obtain rfl | ⟨b, _, -, -, e⟩ | ⟨h, tail, rfl, e⟩ := decode_cases bs
    · cases hd
    · cases e.symm.trans hd
    · obtain ⟨rfl, rfl⟩ := decodeOperands_eq_ok (e.symm.trans hd)
      rw [encode_eq_cons, List.cons_append]
  · rintro rfl
    rw [encode_eq_cons, List.cons_append, decode_cons_opcode, decodeOperands_operands]

/-- Settles O1: the opcode byte selects the instruction's own handler, which reads back the operand bytes. -/
theorem decodeOfEncodeIsIdentity : Obligations.DecodeOfEncodeIsIdentity := fun _ _ => decode_eq_ok.2 rfl

/-- Settles O2: a handler's opcode byte and what it reads after it are the encoding. -/
theorem encodeOfDecodeIsIdentity : Obligations.EncodeOfDecodeIsIdentity := fun _ _ _ => decode_eq_ok.1

/-- Settles O3: each word is the encoding of its instruction, and 0xFF has no handler. -/
theorem decodeOfWordsWrittenFromTheTables : Obligations.DecodeOfWordsWrittenFromTheTables :=
  ⟨decode_eq_ok.2 rfl, decode_eq_ok.2 rfl, decode_eq_ok.2 rfl, decode_eq_ok.2 rfl, decode_eq_ok.2 rfl,
    decode_eq_ok.2 rfl, decode_eq_ok.2 rfl, decode_of_unmapped (by decide) []⟩

/-- The ten bytes of the opcode map (R48). -/
def opcodeMap : List Byte := [0x01, 0x99, 0xAA, 0xA8, 0x43, 0x4D, 0x4C, 0x48, 0x09, 0x50]

theorem opcode_mem_opcodeMap (h : Handler) : h.opcode ∈ opcodeMap := by cases h <;> decide

theorem decodeOpcode_ne_none_of_mem : ∀ b ∈ opcodeMap, decodeOpcode b ≠ none := by decide

theorem decodeOpcode_eq_none {b : Byte} : decodeOpcode b = none ↔ b ∉ opcodeMap := by
  refine ⟨fun hn hb => decodeOpcode_ne_none_of_mem b hb hn, fun hb => ?_⟩
  cases hd : decodeOpcode b with
  | none => rfl
  | some h =>
    obtain rfl := opcode_of_decodeOpcode hd
    exact absurd (opcode_mem_opcodeMap h) hb

/-- Settles O4: an unmapped byte is refused by name, and a handler refuses no byte. -/
theorem decodeRefusesExactlyTheUnmappedOpcodes : Obligations.DecodeRefusesExactlyTheUnmappedOpcodes := by
  intro b c rest
  change _ ↔ c = b ∧ b ∉ opcodeMap
  rw [← decodeOpcode_eq_none]
  cases hd : decodeOpcode b with
  | none => simp [decode_of_unmapped hd, eq_comm]
  | some h =>
    obtain rfl := opcode_of_decodeOpcode hd
    simp [decodeOperands_ne_invalidOpcode]

end Sys2Proof
end

section
/-! ### The register-operand check and the handler contract (spec/40_execution_cycle.md R58 to R65) -/

namespace Sys2Proof.Machine

section
variable {i : Instr} {s t : State} {ra rb : Byte}

/-! An operand byte that passes the check, and one that does not (R46, R61) -/

theorem namesRegister_eq_true : namesRegister ra = true ↔ ∃ a : RegIdx, ra.toNat = a.val := by
  simp_rw [namesRegister_iff, regOperand_eq_some]

theorem namesRegister_eq_false : namesRegister ra = false ↔ 7 < ra.toNat := by
  simp [namesRegister]

theorem namesRegisters_eq_true : (namesRegister ra && namesRegister rb) = true ↔
    ∃ a b : RegIdx, ra.toNat = a.val ∧ rb.toNat = b.val := by
  simp [namesRegister_eq_true]

theorem namesRegisters_eq_false : (namesRegister ra && namesRegister rb) = false ↔
    7 < ra.toNat ∨ 7 < rb.toNat := by
  rw [Bool.and_eq_false_iff, namesRegister_eq_false, namesRegister_eq_false]

/-- Every check stands before its handler's effect, so an ill-formed instruction has none (R61, R89). -/
theorem exec_of_illFormed (h : i.wellFormed = false) : exec i s = .next s.badRegister := by
  cases i with
  | hlt | ret => cases h
  | mul | add => exact withRegs_of_bad s (namesRegisters_eq_false.1 h) _
  | ldi | prn | push | pop | call | jmp => exact withReg_of_bad s (namesRegister_eq_false.1 h) _

/-- Format Z has no register operand to be bad (R42). -/
theorem format_ne_z_of_illFormed (h : i.wellFormed = false) : i.handler.format ≠ .z := by
  cases i with
  | hlt | ret => cases h
  | ldi | mul | add | prn | push | pop | call | jmp => exact nofun

theorem handler_opcode_eq_opcHLT : i.handler.opcode = opcHLT ↔ i = .hlt := by
  refine ⟨fun h => ?_, fun h => h ▸ rfl⟩
  have hh : i.handler = .hlt := opcode_injective h
  cases i with
  | hlt => rfl
  | ldi | mul | add | prn | push | pop | call | ret | jmp => cases hh

end

/-- Settles O29: the check of the operands answers the fault before the handler runs. -/
theorem illFormedInstructionTakesTheFault : Obligations.IllFormedInstructionTakesTheFault :=
  fun _ _ h => exec_of_illFormed h

/-- Settles O14: each handler is a composition of the shared operations, none of which reads `ir`; only HLT writes
`run`, only PRN `out`, and none `ir` or `diag`. -/
theorem handlerKeepsItsContract : Obligations.HandlerKeepsItsContract := by
  intro i s h
  cases i with
  | hlt => exact ⟨_, exec_hlt, rfl, rfl, rfl, rfl, rfl, fun _ => rfl⟩
  | ldi ra imm =>
    obtain ⟨a, ha⟩ := namesRegister_eq_true.1 h
    exact ⟨_, exec_ldi ha, rfl, rfl, rfl, rfl, State.advancePC_pc _ 3, fun _ => exec_ldi ha⟩
  | mul ra rb =>
    obtain ⟨a, b, ha, hb⟩ := namesRegisters_eq_true.1 h
    exact ⟨_, exec_mul ha hb, rfl, rfl, rfl, rfl, State.advancePC_pc _ 3, fun _ => exec_mul ha hb⟩
  | add ra rb =>
    obtain ⟨a, b, ha, hb⟩ := namesRegisters_eq_true.1 h
    exact ⟨_, exec_add ha hb, rfl, rfl, rfl, rfl, State.advancePC_pc _ 3, fun _ => exec_add ha hb⟩
  | prn ra =>
    obtain ⟨a, ha⟩ := namesRegister_eq_true.1 h
    refine ⟨_, exec_prn ha, rfl, rfl, rfl, fun a' ha' => ?_, State.advancePC_pc _ 2, fun _ => exec_prn ha⟩
    obtain rfl : a = a' := Fin.ext (ha.symm.trans ha')
    rfl
  | push ra =>
    obtain ⟨a, ha⟩ := namesRegister_eq_true.1 h
    exact ⟨_, exec_push ha, rfl, rfl, rfl, rfl, State.advancePC_pc _ 2, fun _ => exec_push ha⟩
  | pop ra =>
    obtain ⟨a, ha⟩ := namesRegister_eq_true.1 h
    exact ⟨_, exec_pop ha, rfl, rfl, rfl, rfl, State.advancePC_pc _ 2, fun _ => exec_pop ha⟩
  | call ra =>
    obtain ⟨a, ha⟩ := namesRegister_eq_true.1 h
    refine ⟨_, exec_call ha, rfl, rfl, rfl, rfl, fun a' ha' => ?_, fun _ => exec_call ha⟩
    obtain rfl : a = a' := Fin.ext (ha.symm.trans ha')
    exact State.setPC_byte_pc _ _
  | ret => exact ⟨_, exec_ret, rfl, rfl, rfl, rfl, s.setPC_byte_pc _, fun _ => rfl⟩
  | jmp ra =>
    obtain ⟨a, ha⟩ := namesRegister_eq_true.1 h
    refine ⟨_, exec_jmp ha, rfl, rfl, rfl, rfl, fun a' ha' => ?_, fun _ => exec_jmp ha⟩
    obtain rfl : a = a' := Fin.ext (ha.symm.trans ha')
    exact State.setPC_byte_pc _ _

end Sys2Proof.Machine
end

section
/-! ### What one tick does (spec/40_execution_cycle.md R57 to R65, spec/60_exceptions.md R88, R89) -/

namespace Sys2Proof.Machine

section
variable {i : Instr} {s t : State}

/-! The fetched instruction and its operand bytes -/

/-- The encoding of the instruction at `pc` begins the three bytes there (R31, R58). -/
theorem State.fetchInstr_eq_some_iff_encode : s.fetchInstr = some i ↔
    ∃ rest, encode i ++ rest = [s.memRead s.pc, s.memRead (s.pc + 1), s.memRead (s.pc + 2)] := by
  simp_rw [State.fetchInstr_eq_some, decode_eq_ok]

/-- The first operand byte of the fetched instruction stands after its opcode byte (R58). -/
theorem State.memRead_of_head_operands {b : Byte} (hi : s.fetchInstr = some i) (hb : i.operands.head? = some b) :
    s.memRead (s.pc + 1) = b := by
  obtain ⟨rest, he⟩ := State.fetchInstr_eq_some_iff_encode.1 hi
  rw [encode_eq_cons, List.cons_append] at he
  have hh : (i.operands ++ rest).head? = some b := by rw [List.head?_append, hb, Option.some_or]
  rw [(List.cons.inj he).2] at hh
  exact Option.some.inj hh

/-- A handler one of whose register operand bytes is above 7 reads an ill-formed instruction (R61). -/
theorem decodeOperands_illFormed {h : Handler} {b c : Byte} (hz : h.format ≠ .z)
    (hb : 7 < b.toNat ∨ (h.format = .rr ∧ 7 < c.toNat)) :
    ∃ i rest, h.decodeOperands [b, c] = .ok i rest ∧ i.wellFormed = false := by
  cases h with
  | hlt | ret => exact absurd rfl hz
  | mul | add => exact ⟨_, _, rfl, namesRegisters_eq_false.2 (hb.imp_right And.right)⟩
  | ldi | prn | push | pop | call | jmp =>
    exact ⟨_, _, rfl, namesRegister_eq_false.2 (hb.resolve_right fun h => nomatch h.1)⟩

/-! Everything a tick of the RUNNING core can do -/

/-- A RUNNING tick answers a next state: the fault of a byte without a handler, the fault of a bad register
operand, or the meaning of the well-formed instruction at `pc` (R60, R61, R62). -/
theorem step_running_cases (hr : s.run = .running) : ∃ t, step s = .next t ∧
    ((decodeOpcode (s.memRead s.pc) = none ∧ t = faulted s.fetchOpcode .invalidOpcode s.pc (s.memRead s.pc)) ∨
      ∃ i : Instr, s.memRead s.pc = i.handler.opcode ∧ s.fetchInstr = some i ∧
        ((i.wellFormed = false ∧ t = faulted s.fetchOpcode .invalidRegisterIndex s.pc (s.memRead s.pc)) ∨
          (i.wellFormed = true ∧ exec i s.fetchOpcode = .next t))) := by
  obtain ⟨hh, -⟩ | ⟨-, hd, e⟩ | ⟨i, -, ho, hi, e⟩ := step_cases s
  · cases hr.symm.trans hh
  · exact ⟨_, e, .inl ⟨hd, rfl⟩⟩
  · cases hw : i.wellFormed with
    | false => exact ⟨_, e.trans (exec_of_illFormed hw), .inr ⟨i, ho, hi, .inl ⟨hw, rfl⟩⟩⟩
    | true =>
      obtain ⟨t, ht, -⟩ := handlerKeepsItsContract i s.fetchOpcode hw
      exact ⟨t, e.trans ht, .inr ⟨i, ho, hi, .inr ⟨hw, ht⟩⟩⟩

theorem memRead_ne_opcHLT_of_unmapped (hd : decodeOpcode (s.memRead s.pc) = none) : s.memRead s.pc ≠ opcHLT := by
  intro h
  rw [h] at hd
  exact absurd hd (decodeOpcode_ne_none_of_mem opcHLT (opcode_mem_opcodeMap .hlt))

end

/-- Settles O6: the encoding begins the three bytes at `pc`, so it is what the tick fetches. -/
theorem stepRunsTheEncodingStoredAtPc : Obligations.StepRunsTheEncodingStoredAtPc := by
  intro s i hr hm
  have hbegins : encode i <+: [s.memRead s.pc, s.memRead (s.pc + 1), s.memRead (s.pc + 2)] := by
    refine List.prefix_iff_getElem.2 ⟨encode_length_le i, fun k hk => (hm k hk).symm.trans ?_⟩
    have hk3 : k < 3 := Nat.lt_of_lt_of_le hk (encode_length_le i)
    interval_cases k <;> simp
  obtain ⟨rest, he⟩ := hbegins
  have hop : s.memRead s.pc = i.handler.opcode := by
    rw [encode_eq_cons, List.cons_append] at he
    exact (List.cons.inj he).1.symm
  rw [step_of_fetched hr (State.fetchInstr_eq_some_iff_encode.2 ⟨rest, he⟩), State.fetchOpcode, State.getPC_eq, hop]

/-- Settles O10: the fetched instruction is ill-formed (`decodeOperands_illFormed`), so the tick is its fault. -/
theorem badRegisterOperandHaltsBeforeAnyWrite : Obligations.BadRegisterOperandHaltsBeforeAnyWrite := by
  intro s h hr ho hz hbad
  obtain ⟨i, rest, hi, hw⟩ := decodeOperands_illFormed hz hbad
  have hf : s.fetchInstr = some i := by rw [State.fetchInstr_of_handler ho, hi]; rfl
  rw [step_of_fetched hr hf, exec_of_illFormed hw, State.badRegister_eq, ← ho]
  rfl

/-- Settles O11: the two faults end in the third outcome; a handler ends in the second if it is HLT's and in the
first otherwise, by the handler contract. -/
theorem tickOutcomeIsOneOfThree : Obligations.TickOutcomeIsOneOfThree := by
  intro s hr
  obtain ⟨t, ht, ⟨hd, rfl⟩ | ⟨i, ho, -, ⟨hw, rfl⟩ | ⟨hw, he⟩⟩⟩ := step_running_cases hr <;> refine ⟨_, ht, ?_⟩
  · exact .inr (.inr ⟨rfl, memRead_ne_opcHLT_of_unmapped hd, _, rfl⟩)
  · refine .inr (.inr ⟨rfl, ?_, _, rfl⟩)
    rw [ho, Ne, handler_opcode_eq_opcHLT]
    rintro rfl
    cases hw
  · obtain ⟨t', ht', -, hdiag, hrun, -⟩ := handlerKeepsItsContract i s.fetchOpcode hw
    cases he.symm.trans ht'
    rw [ho, Ne, handler_opcode_eq_opcHLT]
    by_cases hi : i = .hlt
    · exact .inr (.inl ⟨hrun.trans (if_pos hi), hdiag, hi⟩)
    · exact .inl ⟨(hrun.trans (if_neg hi)).trans hr, hdiag, hi⟩

/-- Settles O12: a tick in HALTED and a handler that runs keep `diag`, and the two faults write only `ir`, `run` and
`diag`. -/
theorem faultingTickChangesOnlyIrRunDiag : Obligations.FaultingTickChangesOnlyIrRunDiag := by
  intro s t h hdiag
  cases hr : s.run with
  | halted =>
    cases h.symm.trans (step_of_halted hr)
    exact absurd rfl hdiag
  | running =>
    obtain ⟨t', ht', hc⟩ := step_running_cases hr
    cases h.symm.trans ht'
    obtain ⟨hd, rfl⟩ | ⟨i, ho, -, ⟨-, rfl⟩ | ⟨hw, he⟩⟩ := hc
    · exact ⟨.invalidOpcode, rfl, iff_of_true rfl hd⟩
    · exact ⟨.invalidRegisterIndex, rfl, iff_of_false nofun (by simp [ho])⟩
    · obtain ⟨t', ht', -, hkept, -⟩ := handlerKeepsItsContract i s.fetchOpcode hw
      cases he.symm.trans ht'
      exact absurd hkept hdiag

end Sys2Proof.Machine
end

section
/-! ### Stack, call and halt (spec/41_halt.md, spec/45_stack.md, spec/46_control_transfer.md) -/

namespace Sys2Proof.Machine

/-! The frame of a push (R76) -/

theorem regsKeptBut_pushByte (s : State) (v : State → Byte) : regsKeptBut [Config.spIndex] s (s.pushByte v) :=
  fun j hj => (s.get_pushByte v j).trans (if_neg (List.ne_of_not_mem_cons hj))

/-- What a push does to memory, at the address the decrement leaves in SP. -/
theorem pushByte_stores (s : State) (v : State → Byte) {addr : Byte} (h : s.decSP.getSP = addr) :
    addr = s.getSP - 1 ∧ (s.pushByte v).memRead addr = v s.decSP ∧ memKeptBut addr s (s.pushByte v) := by
  rw [State.getSP_decSP] at h
  subst h
  exact ⟨rfl, (s.memRead_pushByte v _).trans (if_pos rfl), memKeptBut_of_mem_write (s.pushByte_mem v)⟩

/-- Settles O24: PUSH is `pushByte` and then `advancePC` (`exec_push`); the operand is read after the decrement. -/
theorem pushStoresBelowTheStackTop : Obligations.PushStoresBelowTheStackTop := by
  intro s ra a ha
  refine ⟨_, exec_push ha, s.getSP_pushByte fun t => t.get a, fun addr h => ?_, State.advancePC_pc _ 2,
    regsKeptBut_pushByte s fun t => t.get a, rfl, rfl, rfl, rfl⟩
  obtain ⟨haddr, hread, hkept⟩ := pushByte_stores s (fun t => t.get a) h
  exact ⟨haddr, hread.trans (s.get_decSP a), hkept⟩

/-- The frame of a pop into a register: it writes that register and then the stack pointer (R76). -/
theorem regsKeptBut_set_incSP (s : State) (a : RegIdx) (v : Int) :
    regsKeptBut [a, Config.spIndex] s (s.set a v).incSP := by
  intro j hj
  obtain ⟨hja, hjsp⟩ := not_or.1 (mt List.mem_cons.2 hj)
  exact (regsKeptBut_incSP _ j hjsp).trans (s.get_set_of_ne hja v)

/-- Settles O25: POP is `set`, `incSP` and `advancePC` (`exec_pop`); for `R7` the increment is of the popped byte. -/
theorem popLoadsTheStackTop : Obligations.PopLoadsTheStackTop := by
  intro s ra a ha
  refine ⟨_, exec_pop ha, fun hne => ⟨?_, ?_⟩, ?_, State.advancePC_pc _ 2, regsKeptBut_set_incSP s a _, fun _ => rfl,
    rfl, rfl, rfl, rfl⟩
  · rw [State.advancePC_get, State.get_incSP, if_neg hne, State.get_set_same, maskByte_byte]
  · rw [State.advancePC_getSP, State.getSP_incSP, State.getSP_eq, State.get_set_of_ne _ hne.symm, State.getSP_eq]
  · rintro rfl
    rw [State.advancePC_getSP, State.getSP_incSP, State.getSP_eq, State.get_set_same, maskByte_byte]

/-- Settles O26: CALL is `pushByte` of the return address and then `setPC` of the register (`exec_call`), which the
decrement has changed for `R7`. -/
theorem callPushesTheReturnAddress : Obligations.CallPushesTheReturnAddress := by
  intro s ra a ha
  refine ⟨_, exec_call ha, s.getSP_pushByte fun u => u.getPC + 2,
    fun addr h => pushByte_stores s (fun u => u.getPC + 2) h, ?_,
    regsKeptBut_pushByte s fun u => u.getPC + 2, rfl, rfl, rfl, rfl⟩
  rw [State.setPC_byte_pc, State.get_pushByte]

/-! The round trips (R76, R80) -/

/-- Settles O30: the pop reads the byte the push stored; for `R7` both are one below the stack pointer. -/
theorem pushThenPopIsARoundTrip : Obligations.PushThenPopIsARoundTrip := by
  intro s ra a ha
  obtain ⟨t, ht, hsp, hmem, -⟩ := pushStoresBelowTheStackTop s ra a ha
  refine ⟨t, ht, fun u husp hucell => ?_⟩
  obtain ⟨-, hstored, -⟩ := hmem (s.getSP - 1) s.getSP_decSP
  obtain ⟨v, hv, hother, hself, -⟩ := popLoadsTheStackTop u ra a ha
  have hpopped : u.memRead u.getSP = if a = Config.spIndex then s.getSP - 1 else s.get a := by
    rw [husp, hucell, hsp, hstored]
  refine ⟨v, hv, ?_⟩
  by_cases hne : a = Config.spIndex
  · have hvsp : v.getSP = s.getSP := by
      rw [hself hne, hpopped, if_pos hne, BitVec.sub_add_cancel]
    subst hne
    exact ⟨hvsp, hvsp⟩
  · obtain ⟨hget, hvsp⟩ := hother hne
    rw [hget, hpopped, if_neg hne, hvsp, husp, hsp, BitVec.sub_add_cancel]
    exact ⟨rfl, rfl⟩

/-- Settles O31: RET reads the return address CALL stored. -/
theorem callThenRetReturns : Obligations.CallThenRetReturns := by
  intro s ra a ha
  obtain ⟨t, ht, hsp, hmem, -⟩ := callPushesTheReturnAddress s ra a ha
  refine ⟨t, ht, fun u husp hucell => ?_⟩
  obtain ⟨-, hstored, -⟩ := hmem (s.getSP - 1) s.getSP_decSP
  obtain ⟨v, hv, hpc, hvsp, -⟩ := retPopsThePc u
  refine ⟨v, hv, ?_, ?_⟩
  · rw [hpc, husp, hucell, hsp, hstored]
  · rw [hvsp, husp, hsp, BitVec.sub_add_cancel]

/-! Ticks that halt, and ticks that come back (R68, R104) -/

/-- Settles O19: HLT is `stop`, which writes `run` only; the first tick runs it and the later ones find the core
HALTED. -/
theorem hltHaltsCleanly : Obligations.HltHaltsCleanly := by
  refine fun s => ⟨⟨_, exec_hlt, rfl, rfl, rfl, rfl, rfl, fun _ _ => rfl, fun _ => rfl⟩, fun hr ho k => ?_⟩
  have hstep : step s = .next { s with ir := opcHLT, run := .halted } := by
    rw [step_of_fetched hr (State.fetchInstr_of_handler (h := .hlt) ho), exec_hlt, State.fetchOpcode,
      State.getPC_eq, ho]
    rfl
  exact runTransactions_ticks_of_step_halted hstep rfl k

theorem runTransactions_ticks_of_fixed {s : State} (h : step s = .next s) (k : Nat) :
    runTransactions (List.replicate k .tick) s = .next s := by
  induction k with
  | zero => rfl
  | succ k ih => rw [List.replicate_succ, runTransactions_cons (tr := .tick) h, ih]

/-- A JMP to its own address changes nothing but `ir`. -/
theorem step_jmp_self {s : State} {a : RegIdx} (hr : s.run = .running) (ho : s.memRead s.pc = opcJMP)
    (ha : (s.memRead (s.pc + 1)).toNat = a.val) (hpc : s.get a = s.pc) :
    step s = .next { s with ir := opcJMP } := by
  rw [step_of_fetched hr (State.fetchInstr_of_handler (h := .jmp) ho), exec_jmp ha, State.fetchOpcode_get, hpc,
    State.setPC, maskByte_byte, State.fetchOpcode, State.getPC_eq, ho]

/-- Settles O32: the first tick loads `ir`, and its state meets the same conditions, so later ticks leave it as it
is. -/
theorem jumpToItselfNeverHalts : Obligations.JumpToItselfNeverHalts := by
  intro s a hr ho ha hpc k
  have hfixed : step { s with ir := opcJMP } = .next { s with ir := opcJMP } := step_jmp_self hr ho ha hpc
  rw [List.replicate_succ, runTransactions_cons (tr := .tick) (step_jmp_self hr ho ha hpc),
    runTransactions_ticks_of_fixed hfixed]

end Sys2Proof.Machine
end

section
/-! ### Whole-machine rules over every tick (spec/10_state.md R11, R22, spec/40_execution_cycle.md R63) -/

namespace Sys2Proof.Machine

section
variable {i : Instr} {s t : State} {ra rb : Byte} {j : RegIdx}

/-! What an instruction can do to the registers (R11) -/

theorem mem_of_regsKeptBut {W : List RegIdx} (hk : regsKeptBut W s t) (hne : t.get j ≠ s.get j) : j ∈ W :=
  by_contra fun hj => hne (hk j hj)

/-- Behind a one-operand check, a changed register is one the handler writes (the fault writes none). -/
theorem withReg_changes {handler : RegIdx → State} (W : RegIdx → List RegIdx) (h : withReg ra s handler = .next t)
    (hk : ∀ a, regsKeptBut (W a) s (handler a)) (hne : t.get j ≠ s.get j) :
    ∃ a : RegIdx, ra.toNat = a.val ∧ j ∈ W a := by
  obtain ⟨a, ha, e⟩ | ⟨-, e⟩ := withReg_cases s ra handler <;> cases h.symm.trans e
  · exact ⟨a, ha, mem_of_regsKeptBut (hk a) hne⟩
  · exact absurd rfl hne

/-- Behind a two-operand check, a changed register is the destination, the first operand. -/
theorem withRegs_changes {handler : RegIdx → RegIdx → State} (h : withRegs ra rb s handler = .next t)
    (hk : ∀ a b, regsKeptBut [a] s (handler a b)) (hne : t.get j ≠ s.get j) : ra.toNat = j.val := by
  obtain ⟨a, b, ha, -, e⟩ | ⟨-, e⟩ := withRegs_cases s ra rb handler <;> cases h.symm.trans e
  · obtain rfl := List.mem_singleton.1 (mem_of_regsKeptBut (hk a b) hne)
    exact ha
  · exact absurd rfl hne

/-- Which registers an instruction can change: its first operand, or the stack pointer (R11). -/
theorem exec_changes (h : exec i s = .next t) (hne : t.get j ≠ s.get j) :
    (writesRa i.handler.opcode ∧ ∃ ra : Byte, i.operands.head? = some ra ∧ ra.toNat = j.val) ∨
      (movesSP i.handler.opcode ∧ j = Config.spIndex) := by
  cases i with
  | hlt => cases h; exact absurd rfl hne
  | ldi ra imm =>
    obtain ⟨a, ha, hj⟩ := withReg_changes (fun a => [a]) h (fun a => regsKeptBut_set s a _) hne
    exact .inl ⟨.inl rfl, ra, rfl, List.mem_singleton.1 hj ▸ ha⟩
  | mul ra rb =>
    exact .inl ⟨.inr (.inl rfl), ra, rfl, withRegs_changes h (fun a _ => regsKeptBut_set s a _) hne⟩
  | add ra rb =>
    exact .inl ⟨.inr (.inr (.inl rfl)), ra, rfl, withRegs_changes h (fun a _ => regsKeptBut_set s a _) hne⟩
  | prn ra =>
    obtain ⟨_, -, hj⟩ := withReg_changes (fun _ => []) h (fun _ _ _ => rfl) hne
    cases hj
  | push ra =>
    obtain ⟨_, -, hj⟩ := withReg_changes (fun _ => [Config.spIndex]) h
      (fun a => regsKeptBut_pushByte s fun t => t.get a) hne
    exact .inr ⟨.inl rfl, List.mem_singleton.1 hj⟩
  | pop ra =>
    obtain ⟨a, ha, hj⟩ := withReg_changes (fun a => [a, Config.spIndex]) h
      (fun a => regsKeptBut_set_incSP s a _) hne
    obtain rfl | hj := List.mem_cons.1 hj
    · exact .inl ⟨.inr (.inr (.inr rfl)), ra, rfl, ha⟩
    · exact .inr ⟨.inr (.inl rfl), List.mem_singleton.1 hj⟩
  | call ra =>
    obtain ⟨_, -, hj⟩ := withReg_changes (fun _ => [Config.spIndex]) h
      (fun _ => regsKeptBut_pushByte s fun u => u.getPC + 2) hne
    exact .inr ⟨.inr (.inr (.inl rfl)), List.mem_singleton.1 hj⟩
  | ret =>
    cases h
    exact .inr ⟨.inr (.inr (.inr rfl)), List.mem_singleton.1 (mem_of_regsKeptBut (regsKeptBut_incSP (s.setPC _)) hne)⟩
  | jmp ra =>
    obtain ⟨_, -, hj⟩ := withReg_changes (fun _ => []) h (fun _ _ _ => rfl) hne
    cases hj

end

/-- Settles O16: only an instruction that runs changes a register (`exec_changes`), and its first operand byte is the
one after its opcode. -/
theorem registersChangeOnlyByTheirWriters : Obligations.RegistersChangeOnlyByTheirWriters := by
  intro s t j h hne
  obtain ⟨-, e⟩ | ⟨-, -, e⟩ | ⟨i, -, ho, hi, e⟩ := step_cases s
  · cases h.symm.trans e; exact absurd rfl hne
  · cases h.symm.trans e; exact absurd rfl hne
  · rw [ho]
    refine (exec_changes (e.symm.trans h) hne).imp_left fun ⟨hop, ra, hra, hj⟩ => ⟨hop, ?_⟩
    rw [State.memRead_of_head_operands hi hra, hj]

/-- Settles O35: by the handler contract only PRN writes `out`, and its register is named by the byte after its
opcode. -/
theorem outputGrowsOnlyByPrn : Obligations.OutputGrowsOnlyByPrn := by
  intro s t h
  cases hr : s.run with
  | halted => cases h.symm.trans (step_of_halted hr); exact .inl rfl
  | running =>
    obtain ⟨t', ht', hc⟩ := step_running_cases hr
    cases h.symm.trans ht'
    obtain ⟨-, rfl⟩ | ⟨i, ho, hi, ⟨-, rfl⟩ | ⟨hw, he⟩⟩ := hc
    · exact .inl rfl
    · exact .inl rfl
    · obtain ⟨t', ht', -, -, -, hout, -⟩ := handlerKeepsItsContract i s.fetchOpcode hw
      cases he.symm.trans ht'
      cases i with
      | prn ra =>
        obtain ⟨a, ha⟩ := namesRegister_eq_true.1 hw
        refine .inr ⟨rfl, ho, a, ?_, hout a ha⟩
        rw [State.memRead_of_head_operands hi rfl, ha]
      | hlt | ldi | mul | add | push | pop | call | ret | jmp => exact .inl hout

/-- Settles O13: the two faults keep `pc`, and so does a bad operand; a well-formed instruction leaves it as the handler
contract says, or, for CALL and JMP, as their own completions say. -/
theorem pcAfterEveryTick : Obligations.PcAfterEveryTick := by
  intro s hr
  obtain ⟨t, ht, ⟨hd, rfl⟩ | ⟨i, -, hi, hc⟩⟩ := step_running_cases hr <;> refine ⟨_, ht, ?_⟩
  · rw [decode_of_unmapped hd]
    rfl
  · obtain ⟨rest, hdec⟩ := State.fetchInstr_eq_some.1 hi
    rw [hdec]
    obtain ⟨hw, rfl⟩ | ⟨hw, he⟩ := hc
    · exact ⟨fun _ => rfl, fun h => absurd (hw.symm.trans h) nofun⟩
    · refine ⟨fun h => absurd (hw.symm.trans h) nofun, fun _ => ?_⟩
      obtain ⟨t', ht', -, -, -, -, hpc, -⟩ := handlerKeepsItsContract i s.fetchOpcode hw
      cases he.symm.trans ht'
      cases i with
      | hlt | ldi | mul | add | prn | push | pop | ret => exact hpc
      | call ra =>
        intro a ha
        obtain ⟨t', ht', -, -, hcall, -⟩ := callPushesTheReturnAddress s.fetchOpcode ra a ha
        cases he.symm.trans ht'
        exact hcall
      | jmp ra =>
        intro a ha
        obtain ⟨t', ht', hjmp, -⟩ := jmpSetsThePc s.fetchOpcode ra a ha
        cases he.symm.trans ht'
        exact hjmp

end Sys2Proof.Machine
end

section
/-! ### The streams are never read back (spec/10_state.md R22, spec/44_output.md R75) -/

namespace Sys2Proof.Machine

/-- The same machine with more output and more diagnostics before its own. -/
def State.withEarlier (o : List Byte) (d : List DiagRecord) (s : State) : State :=
  { s with out := o ++ s.out, diag := d ++ s.diag }

section
variable {o : List Byte} {d : List DiagRecord} {s t : State} {ra rb : Byte}

/-! Every operation that does not put out commutes with `withEarlier` by definition; these two put out. -/

theorem State.output_withEarlier (v : Byte) : (s.withEarlier o d).output v = (s.output v).withEarlier o d := by
  simp [State.withEarlier, State.output]

theorem State.raise_withEarlier (c : Cause) (a b : Byte) :
    (s.withEarlier o d).raise c a b = (s.raise c a b).withEarlier o d := by
  simp [State.withEarlier, State.raise, State.stop]

theorem withReg_withEarlier {f g : RegIdx → State} (h : withReg ra s f = .next t)
    (hg : ∀ a, g a = (f a).withEarlier o d) : withReg ra (s.withEarlier o d) g = .next (t.withEarlier o d) := by
  obtain ⟨a, ha, e⟩ | ⟨hb, e⟩ := withReg_cases s ra f <;> cases h.symm.trans e
  · rw [withReg_of_reg _ ha, hg]
  · rw [withReg_of_bad _ hb]
    exact congrArg Host.Outcome.next (State.raise_withEarlier ..)

theorem withRegs_withEarlier {f g : RegIdx → RegIdx → State} (h : withRegs ra rb s f = .next t)
    (hg : ∀ a b, g a b = (f a b).withEarlier o d) :
    withRegs ra rb (s.withEarlier o d) g = .next (t.withEarlier o d) := by
  obtain ⟨a, b, ha, hb, e⟩ | ⟨hb, e⟩ := withRegs_cases s ra rb f <;> cases h.symm.trans e
  · rw [withRegs_of_regs _ ha hb, hg]
  · rw [withRegs_of_bad _ hb]
    exact congrArg Host.Outcome.next (State.raise_withEarlier ..)

theorem exec_withEarlier {i : Instr} (h : exec i s = .next t) :
    exec i (s.withEarlier o d) = .next (t.withEarlier o d) := by
  cases i with
  | hlt | ret => cases h; rfl
  | mul | add => exact withRegs_withEarlier h fun _ _ => rfl
  | prn => exact withReg_withEarlier h fun _ => congrArg (State.advancePC · 2) (State.output_withEarlier _)
  | ldi | push | pop | call | jmp => exact withReg_withEarlier h fun _ => rfl

theorem step_withEarlier (h : step s = .next t) : step (s.withEarlier o d) = .next (t.withEarlier o d) := by
  obtain ⟨hr, e⟩ | ⟨hr, hd, e⟩ | ⟨i, hr, -, hi, e⟩ := step_cases s
  · cases h.symm.trans e
    exact step_of_halted hr
  · cases h.symm.trans e
    exact (step_of_unmapped (s := s.withEarlier o d) hr hd).trans
      (congrArg Host.Outcome.next (State.raise_withEarlier (s := s.fetchOpcode) ..))
  · exact (step_of_fetched (s := s.withEarlier o d) hr hi).trans
      (exec_withEarlier (s := s.fetchOpcode) (e.symm.trans h))

end

/-- Settles O36: every operation of a tick commutes with putting earlier entries before the streams. -/
theorem streamsAreNeverReadBack : Obligations.StreamsAreNeverReadBack := fun _ _ _ _ h => step_withEarlier h

end Sys2Proof.Machine
end

section
/-! ### Masking and the arithmetic laws (spec/10_state.md R12, spec/43_alu.md R73) -/

namespace Sys2Proof.Machine

theorem aluFn_add (a b : Byte) : aluFn .add a b = a + b :=
  BitVec.eq_of_toNat_eq ((aluFn_add_toNat a b).trans (BitVec.toNat_add a b).symm)

theorem aluFn_mul (a b : Byte) : aluFn .mul a b = a * b :=
  BitVec.eq_of_toNat_eq ((aluFn_mul_toNat a b).trans (BitVec.toNat_mul a b).symm)

/-- Settles O15: the written register holds `maskByte v`, which is `v mod 256`. -/
theorem registerWriteIsMaskedToAByte : Obligations.RegisterWriteIsMaskedToAByte := by
  refine fun s i v => ⟨?_, regsKeptBut_set s i v⟩
  rw [State.get_set_same, maskByte_toNat, Int.toNat_of_nonneg (Int.emod_nonneg v (by decide))]

/-- Settles O18: the ALU is the addition and the multiplication of `BitVec 8` (`aluFn_add`, `aluFn_mul`), whose low
byte the signed product has too. -/
theorem aluArithmeticLaws : Obligations.AluArithmeticLaws := by
  refine ⟨fun a b => ?_, rfl, rfl⟩
  simp only [aluFn_add, aluFn_mul]
  refine ⟨BitVec.add_comm a b, BitVec.add_zero a, BitVec.mul_zero, BitVec.mul_one a, ?_⟩
  rw [BitVec.ofInt_mul, BitVec.ofInt_toInt, BitVec.ofInt_toInt]

end Sys2Proof.Machine
end

section
/-! ### Transactions and boot (spec/00_scope.md R9, spec/20_memory.md R29, spec/70_reset_and_hazards.md R97 to R99) -/

namespace Sys2Proof.Machine

/-! Sequences of transactions -/

/-- What every transaction of a list keeps, the list keeps; and if every one answers a next state, so does the
list. -/
theorem runTransactions_keeps {P : State → Prop} {trs : List Transaction} {s : State}
    (hP : ∀ tr ∈ trs, ∀ u, P u → ∃ t, transact tr u = .next t ∧ P t) (hs : P s) :
    ∃ t, runTransactions trs s = .next t ∧ P t := by
  induction trs generalizing s with
  | nil => exact ⟨s, rfl, hs⟩
  | cons tr trs ih =>
    obtain ⟨u, hu, hPu⟩ := hP tr List.mem_cons_self s hs
    rw [runTransactions_cons hu]
    exact ih (fun tr' htr' => hP tr' (List.mem_cons_of_mem tr htr')) hPu

/-- A HALTED core answers a tick and a stop with the state itself, and a poke changes memory only (R29, R67). -/
theorem transact_of_halted {s : State} {tr : Transaction} (h : s.run = .halted) (htr : tr ≠ .reset) :
    ∃ m, transact tr s = .next { s with mem := m } := by
  cases tr with
  | tick => exact ⟨s.mem, step_of_halted h⟩
  | stop => exact ⟨s.mem, congrArg Host.Outcome.next (State.stop_of_halted h)⟩
  | poke a v => exact ⟨s.mem.write a v, rfl⟩
  | reset => exact absurd rfl htr

/-- Settles O38: after the stop the core is HALTED, so no tick has an effect. -/
theorem stopPresentedWithTickWins : Obligations.StopPresentedWithTickWins := by
  intro s k
  have hticks (k : Nat) : runTransactions (.stop :: List.replicate k .tick) s = .next s.stop :=
    runTransactions_ticks_of_halted s.stop_run k
  exact ⟨hticks 1, hticks k⟩

/-- Settles O39: a poke is a memory write, and the tick after it loads `ir` from the memory it left
(`everyTickFetchesItsOpcodeIntoIr`). -/
theorem pokeIsSeenByTheNextFetch : Obligations.PokeIsSeenByTheNextFetch := by
  intro s a v
  refine ⟨s.memWrite a v, rfl, s.memRead_memWrite_same a v, memKeptBut_of_mem_write rfl, fun _ _ => rfl, rfl,
    ⟨rfl, rfl, rfl, rfl⟩, ?_⟩
  rintro hr rfl
  obtain ⟨⟨u, hu, hir⟩, -⟩ := everyTickFetchesItsOpcodeIntoIr (s.memWrite s.pc v) hr
  exact ⟨u, hu, hir.trans (s.memRead_memWrite_same s.pc v)⟩

/-- Settles O40: each transaction but a reset changes at most the memory of a HALTED core (`transact_of_halted`). -/
theorem haltedIsTerminalUntilReset : Obligations.HaltedIsTerminalUntilReset := by
  intro trs s hs hreset
  obtain ⟨_, ht, m, rfl⟩ : ∃ t, runTransactions trs s = .next t ∧ ∃ m, t = { s with mem := m } := by
    refine runTransactions_keeps (fun tr htr u hu => ?_) ⟨s.mem, rfl⟩
    obtain ⟨m, rfl⟩ := hu
    obtain ⟨m', e⟩ := transact_of_halted (s := { s with mem := m }) hs (ne_of_mem_of_not_mem htr hreset)
    exact ⟨_, e, m', rfl⟩
  exact ⟨_, ht, hs, rfl, rfl, fun _ _ => rfl, rfl, rfl⟩

/-- Settles O41: `resetCore` writes `State.reset` but for memory, and its eight registers are the literal values. -/
theorem resetGivesEveryRegisterItsValue : Obligations.ResetGivesEveryRegisterItsValue := by
  have hregs : ∀ j : RegIdx, State.reset.get j = if j = 7 then 0xF4 else 0x00 := by decide
  exact ⟨fun s => ⟨s.resetCore, rfl, hregs, rfl, rfl, rfl, rfl, rfl, s.resetCore_memRead⟩, rfl⟩

/-! The loader (R99; decision D27) -/

theorem toNat_ofNat_of_lt_memSize {k : Nat} (h : k < Config.memSize) : (BitVec.ofNat 8 k).toNat = k :=
  (BitVec.toNat_ofNat k 8).trans (Nat.mod_eq_of_lt h)

/-- The loader's pokes from address `n` on write memory only: cell `n + k` gets byte `k`, as far as there are cells
and bytes. -/
theorem runTransactions_loadFrom (p : List Byte) (n : Nat) (s : State) :
    ∃ m, runTransactions (loadFrom n p) s = .next { s with mem := m } ∧
      ∀ a : Byte, m.read a = if a.toNat < n then s.memRead a else p[a.toNat - n]?.getD (s.memRead a) := by
  induction p generalizing n s with
  | nil => exact ⟨s.mem, rfl, fun a => by simp [State.memRead]⟩
  | cons b bs ih =>
    unfold loadFrom
    split
    · next hn =>
      obtain ⟨m, hm, hread⟩ := ih (n + 1) (s.memWrite (BitVec.ofNat 8 n) b)
      refine ⟨m, hm, fun a => ?_⟩
      have hcell : a = BitVec.ofNat 8 n ↔ a.toNat = n := by
        rw [← BitVec.toNat_inj, toNat_ofNat_of_lt_memSize hn]
      rw [hread, State.memRead_memWrite]
      simp only [hcell]
      rcases Nat.lt_trichotomy a.toNat n with hlt | heq | hgt
      · rw [if_pos (by omega), if_neg (by omega), if_pos hlt]
      · rw [if_pos (by omega), if_pos heq, if_neg (by omega), heq, Nat.sub_self]
        rfl
      · rw [if_neg (by omega), if_neg (by omega), if_neg (by omega),
          show a.toNat - n = a.toNat - (n + 1) + 1 by omega, List.getElem?_cons_succ]
    · next hn => exact ⟨s.mem, rfl, fun a => (if_pos (Nat.lt_of_lt_of_le a.isLt (Nat.not_lt.1 hn))).symm⟩

/-- Loading from address 0: a cell that the program reaches holds its byte, and every other is as before. -/
theorem runTransactions_loadFrom_zero (p : List Byte) (s : State) :
    ∃ m, runTransactions (loadFrom 0 p) s = .next { s with mem := m } ∧
      ∀ a : Byte, m.read a = p[a.toNat]?.getD (s.memRead a) := by
  obtain ⟨m, hm, hread⟩ := runTransactions_loadFrom p 0 s
  exact ⟨m, hm, fun a => (hread a).trans (if_neg a.toNat.not_lt_zero)⟩

/-- A memory that reads as the loader leaves it holds byte `k` of the program in cell `k`. -/
theorem getElem?_eq_read_of_loaded {p : List Byte} {m : Memory} {f : Byte → Byte} {k : Nat}
    (hread : ∀ a : Byte, m.read a = p[a.toNat]?.getD (f a)) (hk : k < p.length) (h256 : k < 256) :
    p[k]? = some (m.read (BitVec.ofNat 8 k)) := by
  rw [hread, toNat_ofNat_of_lt_memSize h256, List.getElem?_eq_getElem hk, Option.getD_some]

/-- Settles O44: a refusing loader pokes nothing, a truncating one pokes the cells there are. -/
theorem loaderRefusesOrTruncatesAnOverlongProgram : Obligations.LoaderRefusesOrTruncatesAnOverlongProgram := by
  intro p s hp
  rw [loadUnder_refuse hp, loadUnder_truncate]
  obtain ⟨m, hm, hread⟩ := runTransactions_loadFrom_zero p s
  exact ⟨rfl, _, hm, fun k hk => getElem?_eq_read_of_loaded hread (hk.trans hp) hk, fun _ _ => rfl, rfl, rfl, rfl, rfl,
    rfl⟩

/-- Settles O43: a program that fits is poked from address 0; of one that does not, the loader's policy says whether
nothing or the first 256 bytes are, and pokes write memory only. -/
theorem bootPlacesTheProgram : Obligations.BootPlacesTheProgram := by
  intro p s
  unfold boot
  rw [runTransactions_cons (tr := .reset) (t := s.resetCore) rfl]
  by_cases hp : p.length ≤ Config.memSize
  · obtain ⟨m, hm, hread⟩ := runTransactions_loadFrom_zero p s.resetCore
    rw [loadUnder_of_fits hp]
    refine ⟨_, hm, fun _ => ⟨fun k hk => ?_, fun a ha => ?_⟩, fun hlong => absurd hp (Nat.not_le.2 hlong),
      rfl, rfl, rfl, rfl, rfl⟩
    · exact getElem?_eq_read_of_loaded hread hk (Nat.lt_of_lt_of_le hk hp)
    · have hr := hread a
      rwa [List.getElem?_eq_none ha] at hr
  · obtain ⟨hrefuse, t, htrunc, hplaced, hregs, hpc, -, hrun, hout, hdiag⟩ :=
      loaderRefusesOrTruncatesAnOverlongProgram p s.resetCore (Nat.not_le.1 hp)
    cases Config.overlongPolicy with
    | refuse => exact ⟨_, hrefuse, fun h => absurd h hp, fun _ => .inl fun _ => rfl, rfl, rfl, rfl, rfl, rfl⟩
    | truncate =>
      exact ⟨t, htrunc, fun h => absurd h hp, fun _ => .inr hplaced, hrun, hpc,
        State.x_ext fun j => hregs j List.not_mem_nil, hout, hdiag⟩

end Sys2Proof.Machine
end

section
/-! ### The canonical form of memory (spec/10_state.md R21) -/

namespace Sys2Proof.Machine

/-- In a list of rising addresses the cells are what the lookup finds. -/
theorem Memory.mem_iff_lookup {m : Memory} (hs : m.Pairwise (fun c d => c.1 < d.1)) {c : Host.Cell} :
    c ∈ m ↔ m.lookup c.1 = some c.2 := by
  rw [List.lookup_eq_some_iff]
  constructor
  · intro hc
    obtain ⟨l, r, rfl⟩ := List.append_of_mem hc
    obtain ⟨-, -, hlt⟩ := List.pairwise_append.1 hs
    exact ⟨l, r, rfl, fun d hd => bne_iff_ne.2 (Nat.ne_of_gt (hlt d hd c List.mem_cons_self))⟩
  · rintro ⟨l, r, rfl, -⟩
    exact List.mem_append_right l List.mem_cons_self

/-- A canonical memory lists exactly the cells that read other than an unlisted cell does. -/
theorem Memory.mem_iff_read {m : Memory} (h : m.wf) {c : Host.Cell} :
    c ∈ m ↔ c.2 ≠ memInit c.1 ∧ ∃ a : Byte, a.toNat = c.1 ∧ m.read a = c.2 := by
  obtain ⟨hs, hcells⟩ := h
  rw [Memory.mem_iff_lookup hs]
  constructor
  · intro hc
    obtain ⟨haddr, hv⟩ := hcells c ((Memory.mem_iff_lookup hs).2 hc)
    refine ⟨hv, BitVec.ofNat 8 c.1, toNat_ofNat_of_lt_memSize haddr, ?_⟩
    rw [Memory.read, toNat_ofNat_of_lt_memSize haddr, hc, Option.getD_some]
  · rintro ⟨hv, a, ha, hread⟩
    rw [Memory.read, ha] at hread
    cases hl : m.lookup c.1 with
    | none => rw [hl] at hread; exact absurd hread.symm hv
    | some v => rw [hl] at hread; exact congrArg some hread

/-- Settles O34: memories that read alike list the same cells (`Memory.mem_iff_read`), and each lists them by rising
address. -/
theorem memoriesThatReadAlikeAreEqual : Obligations.MemoriesThatReadAlikeAreEqual := by
  intro m n hm hn hread
  have hmem (c : Host.Cell) : c ∈ m ↔ c ∈ n := by
    rw [Memory.mem_iff_read hm, Memory.mem_iff_read hn]
    simp only [hread]
  have hnodup {l : Memory} (hl : l.wf) : l.Nodup := hl.1.imp fun h e => Nat.ne_of_lt h (congrArg Prod.fst e)
  exact ((List.perm_ext_iff_of_nodup (hnodup hm) (hnodup hn)).2 hmem).eq_of_pairwise
    (fun _ _ _ _ h h' => absurd h' (Nat.lt_asymm h)) hm.1 hn.1

end Sys2Proof.Machine
end

section
/-! ### Invariants (spec/10_state.md R17, R21, R23, spec/60_exceptions.md R83, R90, R91) -/

namespace Sys2Proof.Machine

section
variable {i : Instr} {s t : State}

theorem step_keeps_wf (hm : s.mem.wf) (h : step s = .next t) : t.mem.wf := by
  obtain e | ⟨-, v, e⟩ := step_mem_cases h
  · exact e.symm ▸ hm
  · exact e.symm ▸ Memory.wf_write hm _ v

/-- A RUNNING core has reported nothing since the last reset (R90). -/
theorem State.diagOk.eq_nil (hd : s.diagOk) (hr : s.run = .running) : s.diag = [] := by
  obtain hd | ⟨-, -, hh, -⟩ := hd
  · exact hd
  · cases hr.symm.trans hh

theorem Inv_of_halted (hm : s.mem.wf) (hd : s.diagOk) (hr : s.run = .halted) : s.Inv :=
  ⟨hm, hd, fun h => nomatch hr.symm.trans h⟩

theorem Inv_resetCore (hm : s.mem.wf) : s.resetCore.Inv :=
  ⟨hm, .inl rfl, fun _ => ⟨(by decide : Config.irReset ≠ opcHLT), .inl rfl⟩⟩

/-- A fault from a state without a record leaves one about the instruction at `pc`; that its cause is the right one is
all there is to show (R83). -/
theorem Inv_faulted {c : Cause} (hm : s.mem.wf) (hnil : s.diag = [])
    (hop : c = .invalidOpcode ↔ decodeOpcode (s.memRead s.pc) = none)
    (hreg : c = .invalidRegisterIndex → ∃ h, decodeOpcode (s.memRead s.pc) = some h ∧ h.format ≠ .z) :
    (faulted s.fetchOpcode c s.pc (s.memRead s.pc)).Inv := by
  refine Inv_of_halted hm (.inr ⟨c, ?_, rfl, hop, hreg⟩) rfl
  rw [faulted, State.fetchOpcode_diag, hnil]
  rfl

/-- The three ways a RUNNING tick ends each leave a state that meets the invariant: a fault with its one record, and a
handler with none, whose opcode in `ir` is HLT only if it halted. -/
theorem step_keeps_Inv (hs : s.Inv) (h : step s = .next t) : t.Inv := by
  have ht := step_keeps_wf hs.1 h
  cases hr : s.run with
  | halted => cases h.symm.trans (step_of_halted hr); exact hs
  | running =>
    have hnil : s.diag = [] := hs.2.1.eq_nil hr
    obtain ⟨t', ht', hc⟩ := step_running_cases hr
    cases h.symm.trans ht'
    obtain ⟨hd, rfl⟩ | ⟨i, ho, -, ⟨hw, rfl⟩ | ⟨hw, he⟩⟩ := hc
    · exact Inv_faulted ht hnil (iff_of_true rfl hd) nofun
    · have hdec : decodeOpcode (s.memRead s.pc) = some i.handler := by rw [ho, decodeOpcode_opcode]
      exact Inv_faulted ht hnil (iff_of_false nofun (Option.ne_none_iff_exists'.2 ⟨_, hdec⟩))
        fun _ => ⟨i.handler, hdec, format_ne_z_of_illFormed hw⟩
    · obtain ⟨t', ht', hir, hdiag, hrun, -⟩ := handlerKeepsItsContract i s.fetchOpcode hw
      cases he.symm.trans ht'
      refine ⟨ht, .inl (hdiag.trans hnil), fun htr => ?_⟩
      rw [hir, State.fetchOpcode_ir, ho, Ne, handler_opcode_eq_opcHLT, decodeOpcode_opcode]
      refine ⟨fun hi => ?_, .inr nofun⟩
      rw [if_pos hi] at hrun
      cases htr.symm.trans hrun

end

/-- Settles O45: reset lists no memory and reports nothing, and its `ir` is the reset value. -/
theorem resetMeetsTheInvariant : Obligations.ResetMeetsTheInvariant := Inv_resetCore State.reset_wf

/-- Settles O46: by the ways a tick can end (`step_keeps_Inv`). -/
theorem tickKeepsTheInvariant : Obligations.TickKeepsTheInvariant := fun _ _ => step_keeps_Inv

section
variable {s : State}

theorem exists_step_next (s : State) : ∃ t, step s = .next t := by
  cases hr : s.run with
  | halted => exact ⟨s, step_of_halted hr⟩
  | running =>
    obtain ⟨t, ht, -⟩ := step_running_cases hr
    exact ⟨t, ht⟩

theorem transact_keeps_Inv (hs : s.Inv) (tr : Transaction) : ∃ t, transact tr s = .next t ∧ t.Inv := by
  obtain ⟨hm, hd, hir⟩ := hs
  cases tr with
  | tick =>
    obtain ⟨t, ht⟩ := exists_step_next s
    exact ⟨t, ht, step_keeps_Inv ⟨hm, hd, hir⟩ ht⟩
  | stop =>
    refine ⟨_, rfl, Inv_of_halted hm (hd.imp_right ?_) rfl⟩
    exact fun ⟨c, hrec, _, hcause⟩ => ⟨c, hrec, rfl, hcause⟩
  | poke a v => exact ⟨_, rfl, State.poke_wf hm a v, hd, hir⟩
  | reset => exact ⟨_, rfl, Inv_resetCore hm⟩

/-- At most one record in `diag`, and none while RUNNING: what no transaction breaks, whatever memory holds (R90). -/
def State.OneRecord (s : State) : Prop := s.diag.length ≤ 1 ∧ (s.run = .running → s.diag = [])

theorem transact_keeps_OneRecord (hs : s.OneRecord) (tr : Transaction) :
    ∃ t, transact tr s = .next t ∧ t.OneRecord := by
  cases tr with
  | tick =>
    cases hr : s.run with
    | halted => exact ⟨s, step_of_halted hr, hs⟩
    | running =>
      have hnil := hs.2 hr
      obtain ⟨t, ht, ⟨-, hd, -⟩ | ⟨-, hd, -⟩ | ⟨hh, -, c, hd⟩⟩ := tickOutcomeIsOneOfThree s hr <;>
        rw [hnil] at hd <;> refine ⟨t, ht, by simp [hd], ?_⟩
      · exact fun _ => hd
      · exact fun _ => hd
      · exact fun h => nomatch hh.symm.trans h
  | stop => exact ⟨_, rfl, hs.1, nofun⟩
  | poke a v => exact ⟨_, rfl, hs⟩
  | reset => exact ⟨_, rfl, Nat.zero_le 1, fun _ => rfl⟩

end

/-- Settles O47: by induction on the transactions, each of which keeps the invariant (`transact_keeps_Inv`). -/
theorem transactionsKeepTheInvariant : Obligations.TransactionsKeepTheInvariant :=
  fun _ _ hs => runTransactions_keeps (fun tr _ _ hu => transact_keeps_Inv hu tr) hs

/-- Settles O48: a reset leaves no record, and each transaction keeps `OneRecord`. -/
theorem atMostOneRecordBetweenResets : Obligations.AtMostOneRecordBetweenResets :=
  fun _ s => runTransactions_keeps (s := s.resetCore) (P := State.OneRecord)
    (fun tr _ _ hu => transact_keeps_OneRecord hu tr) ⟨Nat.zero_le 1, fun _ => rfl⟩

/-! How the host reads the halt cause (R91) -/

section
variable {s : State}

theorem haltCause_of_running (hr : s.run = .running) : s.haltCause = none := by
  simp [State.haltCause, hr]

theorem haltCause_of_record {r : DiagRecord} (hr : s.run = .halted) (hd : s.diag = [r]) :
    s.haltCause = some (.fault r.cause) := by
  simp [State.haltCause, hr, hd]

theorem haltCause_of_no_record (hr : s.run = .halted) (hd : s.diag = []) :
    s.haltCause = if s.ir = opcHLT then some .hltExecuted else some .stopped := by
  simp [State.haltCause, hr, hd]

end

/-- Settles O49: from a state with no record, the three outcomes of a tick (`tickOutcomeIsOneOfThree`) are read as no
halt, as HLT and as the fault; a stop leaves an `ir` that is not HLT's. -/
theorem haltCauseIsReadOffDiagAndIr : Obligations.HaltCauseIsReadOffDiagAndIr := by
  rintro s ⟨-, hd, hir⟩ hr
  have hnil := hd.eq_nil hr
  refine ⟨?_, s.stop, rfl, ?_⟩
  · obtain ⟨⟨t, ht, htir⟩, -⟩ := everyTickFetchesItsOpcodeIntoIr s hr
    obtain ⟨t', ht', hc⟩ := tickOutcomeIsOneOfThree s hr
    cases ht.symm.trans ht'
    refine ⟨t, ht, ?_⟩
    rw [hnil] at hc
    obtain ⟨hrun, htd, hop⟩ | ⟨hrun, htd, hop⟩ | ⟨hrun, hop, c, htd⟩ := hc
    · simp [haltCause_of_running hrun, hop, htd]
    · simp [haltCause_of_no_record hrun htd, htir, hop, htd]
    · rw [List.nil_append] at htd
      simp [haltCause_of_record hrun htd, hop, htd]
  · rw [haltCause_of_no_record s.stop_run hnil, State.stop_ir, if_neg (hir hr).1]

end Sys2Proof.Machine
end
